-- ==== Sys2Proof/Config.lean ====
section
/-! DEFINITION. The build parameters of one instance (00_scope.md R6) and the two instances the spec names (R8).
The legal range and every constant derived from them (R7) are in Machine/Params.lean. -/

namespace Sys2Proof

/-- The build parameters, fixed for the life of an instance (R6): the quotient width and the remainder width in bits. -/
structure Config where
  q : Nat
  r : Nat
  deriving DecidableEq, Repr

/-- The default instance, (q, r) = (17, 9) (R8). -/
def Config.default : Config := { q := 17, r := 9 }

/-- The small instance, (q, r) = (6, 5): one block, 64 slots, 8 words (R8). -/
def Config.small : Config := { q := 6, r := 5 }

end Sys2Proof
end

