-- ==== Sys2Proof/Word.lean ====
section
/-! DEFINITION. The machine's words: store words and operands (64 bits), command words (136 bits, 30_encoding.md R61)
and response words (131 bits, R63). Bit 0 is the least significant bit (00_scope.md R9). -/

namespace Sys2Proof

/-- A word of the block store, an operand or a result: 64 bits, unsigned (R10). -/
abbrev Word := BitVec 64

/-- A command word: op in bits 135:128, b in bits 127:64, a in bits 63:0 (R61). -/
abbrev Command := BitVec 136

/-- A response word: status in bits 130:128, d1 in bits 127:64, d0 in bits 63:0 (R63). -/
abbrev Response := BitVec 131

end Sys2Proof
end

