-- ==== Sys2Proof/Machine/Params.lean ====
section
/-! DEFINITION. The legal range of the build parameters (00_scope.md R6) and the constants derived from them (R7). -/

namespace Sys2Proof

/-- The legal range of the build parameters (R6, conflict C7). -/
abbrev Config.Legal (c : Config) : Prop := 6 ≤ c.q ∧ 1 ≤ c.r ∧ c.q + c.r ≤ 64

/-- `P`, the bits of the hash the filter uses (R7). -/
def Config.p (c : Config) : Nat := c.q + c.r

/-- `NSLOTS`: slot indices are 0 to NSLOTS - 1 (R7). -/
def Config.nslots (c : Config) : Nat := 2 ^ c.q

/-- `NBLOCKS` (R7). -/
def Config.nblocks (c : Config) : Nat := 2 ^ c.q / 64

/-- `BW`, the words of a block (R7). -/
def Config.bw (c : Config) : Nat := c.r + 3

/-- `NWORDS`, the words of the block store (R7). -/
def Config.nwords (c : Config) : Nat := c.nblocks * c.bw

/-- `RMASK` (R7). -/
def Config.rmask (c : Config) : Word := BitVec.ofNat 64 (2 ^ c.r - 1)

/-- `QMASK`: bits P-1 to r (R7). -/
def Config.qmask (c : Config) : Word := BitVec.ofNat 64 ((2 ^ c.p - 1) ^^^ (2 ^ c.r - 1))

end Sys2Proof
end

