-- ==== Sys2Proof/Syntax.lean ====
section
/-! DEFINITION. The sixteen commands, one constructor per row of the opcode table (30_encoding.md R66), with the operands the
command reads (R62): none (F0), `a` (F1), or `a` and `b` (F2). An operand is its whole 64-bit field (R64). -/

namespace Sys2Proof

/-- A command. An operand field that a command does not read is no part of it (R62). -/
inductive Instr where
  | rank64 (a b : Word)
  | select64 (a b : Word)
  | ldw (a : Word)
  | stw (a b : Word)
  | remrd (a : Word)
  | remwr (a b : Word)
  | grank (a : Word)
  | gsel (a : Word)
  | runend (a : Word)
  | fas (a : Word)
  | homecov (a : Word)
  | split (a : Word)
  | insert (a : Word)
  | maycon (a : Word)
  | clear
  | rdcsr (a : Word)
  deriving DecidableEq, Repr

/-- The pseudo-commands of the text form (R70). -/
inductive Pseudo where
  | new
  | insertQR (h0 h1 : Nat)
  | mayconQR (h0 h1 : Nat)
  deriving DecidableEq, Repr

end Sys2Proof
end

