-- ==== Sys2Proof/Machine/Operands.lean ====
section
/-! DEFINITION. The operand forms: the three formats (30_encoding.md R62), the operands each command reads, and the table of their
legal ranges (R64), which is the table of BADARG's causes read the other way (60_exceptions.md R152). -/

namespace Sys2Proof

/-- The three formats (R62). -/
inductive Format where
  | f0
  | f1
  | f2
  deriving DecidableEq, Repr

/-- The format of each command (R62, R66). -/
def Instr.format : Instr → Format
  | .rank64 _ _ => .f2
  | .select64 _ _ => .f2
  | .ldw _ => .f1
  | .stw _ _ => .f2
  | .remrd _ => .f1
  | .remwr _ _ => .f2
  | .grank _ => .f1
  | .gsel _ => .f1
  | .runend _ => .f1
  | .fas _ => .f1
  | .homecov _ => .f1
  | .split _ => .f1
  | .insert _ => .f1
  | .maycon _ => .f1
  | .clear => .f0
  | .rdcsr _ => .f1

/-- The first operand; zero, as an assembler emits it, where the command reads none (R62). -/
def Instr.operandA : Instr → Word
  | .rank64 a _ => a
  | .select64 a _ => a
  | .ldw a => a
  | .stw a _ => a
  | .remrd a => a
  | .remwr a _ => a
  | .grank a => a
  | .gsel a => a
  | .runend a => a
  | .fas a => a
  | .homecov a => a
  | .split a => a
  | .insert a => a
  | .maycon a => a
  | .clear => 0
  | .rdcsr a => a

/-- The second operand; zero, as an assembler emits it, where the command reads none (R62). -/
def Instr.operandB : Instr → Word
  | .rank64 _ b => b
  | .select64 _ b => b
  | .ldw _ => 0
  | .stw _ b => b
  | .remrd _ => 0
  | .remwr _ b => b
  | .grank _ => 0
  | .gsel _ => 0
  | .runend _ => 0
  | .fas _ => 0
  | .homecov _ => 0
  | .split _ => 0
  | .insert _ => 0
  | .maycon _ => 0
  | .clear => 0
  | .rdcsr _ => 0

/-- Every operand the command reads is in its legal range: the table of R64. The whole 64-bit operand is tested. -/
def Instr.operandsLegal (c : Config) : Instr → Bool
  | .rank64 _ b => decide (b.toNat ≤ 63)
  | .select64 _ b => decide (1 ≤ b.toNat)
  | .ldw a => decide (a.toNat < c.nwords)
  | .stw a _ => decide (a.toNat < c.nwords)
  | .remrd a => decide (a.toNat < c.nslots)
  | .remwr a b => decide (a.toNat < c.nslots) && decide (b.toNat ≤ c.rmask.toNat)
  | .grank a => decide (a.toNat < c.nslots)
  | .gsel a => decide (1 ≤ a.toNat)
  | .runend a => decide (a.toNat < c.nslots)
  | .fas a => decide (a.toNat < c.nslots)
  | .homecov a => decide (a.toNat < c.nslots)
  | .split _ => true
  | .insert _ => true
  | .maycon _ => true
  | .clear => true
  | .rdcsr a => decide (a.toNat ≤ 8)

/-- The command touches the block store, so that it answers UNINIT before the first CLEAR (R153). -/
def Instr.touchesStore : Instr → Bool
  | .rank64 _ _ => false
  | .select64 _ _ => false
  | .ldw _ => true
  | .stw _ _ => true
  | .remrd _ => true
  | .remwr _ _ => true
  | .grank _ => true
  | .gsel _ => true
  | .runend _ => true
  | .fas _ => true
  | .homecov _ => true
  | .split _ => false
  | .insert _ => true
  | .maycon _ => true
  | .clear => false
  | .rdcsr _ => false

/-- The command may write the block store (R42). -/
def Instr.writesStore : Instr → Bool
  | .rank64 _ _ => false
  | .select64 _ _ => false
  | .ldw _ => false
  | .stw _ _ => true
  | .remrd _ => false
  | .remwr _ _ => true
  | .grank _ => false
  | .gsel _ => false
  | .runend _ => false
  | .fas _ => false
  | .homecov _ => false
  | .split _ => false
  | .insert _ => true
  | .maycon _ => false
  | .clear => true
  | .rdcsr _ => false

end Sys2Proof
end

