-- ==== Sys2Proof/Decode.lean ====
section
/-! DEFINITION. Decoding and encoding of command words (30_encoding.md R61, R65 to R68), the expansion of the pseudo-commands (R70),
and the two entry points by numbered bits. Decoding reads the op field alone and does not depend on state (R65). -/

namespace Sys2Proof

/-- Why a command word is no command. -/
inductive DecodeError where
  /-- The op field is 0x00 or 0x11 to 0xFF (R67). The unit then ends the command with status ILLEGAL; safe. -/
  | illegalOpcode (op : BitVec 8)
  deriving DecidableEq, Repr

/-- The op field, bits 135:128 (R61). -/
def Command.op (w : Command) : BitVec 8 := w.extractLsb' 128 8

/-- The b field, bits 127:64 (R61). -/
def Command.b (w : Command) : Word := w.extractLsb' 64 64

/-- The a field, bits 63:0 (R61). -/
def Command.a (w : Command) : Word := w.extractLsb' 0 64

/-- The command word of three fields (R61). -/
def Command.pack (op : BitVec 8) (a b : Word) : Command := op ++ b ++ a

/-- The command an opcode selects, with the two operand fields (R66, R67). -/
def decodeFields (op : BitVec 8) (a b : Word) : Except DecodeError Instr :=
  match op.toNat with
  | 0x01 => .ok (.rank64 a b)
  | 0x02 => .ok (.select64 a b)
  | 0x03 => .ok (.ldw a)
  | 0x04 => .ok (.stw a b)
  | 0x05 => .ok (.remrd a)
  | 0x06 => .ok (.remwr a b)
  | 0x07 => .ok (.grank a)
  | 0x08 => .ok (.gsel a)
  | 0x09 => .ok (.runend a)
  | 0x0A => .ok (.fas a)
  | 0x0B => .ok (.homecov a)
  | 0x0C => .ok (.split a)
  | 0x0D => .ok (.insert a)
  | 0x0E => .ok (.maycon a)
  | 0x0F => .ok .clear
  | 0x10 => .ok (.rdcsr a)
  | _ => .error (.illegalOpcode op)

/-- Decoding of a command word (R65). -/
def decode (w : Command) : Except DecodeError Instr :=
  decodeFields (Command.op w) (Command.a w) (Command.b w)

/-- The opcode of each command (R66). -/
def Instr.opcode : Instr → BitVec 8
  | .rank64 _ _ => 0x01
  | .select64 _ _ => 0x02
  | .ldw _ => 0x03
  | .stw _ _ => 0x04
  | .remrd _ => 0x05
  | .remwr _ _ => 0x06
  | .grank _ => 0x07
  | .gsel _ => 0x08
  | .runend _ => 0x09
  | .fas _ => 0x0A
  | .homecov _ => 0x0B
  | .split _ => 0x0C
  | .insert _ => 0x0D
  | .maycon _ => 0x0E
  | .clear => 0x0F
  | .rdcsr _ => 0x10

/-- The word of a command: its opcode and its operands, zero in a field it does not read (R61, R62). -/
def encode (i : Instr) : Command := Command.pack i.opcode i.operandA i.operandB

/-- A row of the opcode table over the whole command word: a word selects the row when `word & mask = pattern` (R65). -/
structure OpcodeRow where
  mnemonic : String
  pattern : Command
  mask : Command
  deriving DecidableEq, Repr

/-- The row of an opcode: `mask = 0xFF << 128`, `match = op << 128` (R65). -/
def opcodeRow (mnemonic : String) (op : Nat) : OpcodeRow :=
  { mnemonic := mnemonic, pattern := BitVec.ofNat 136 (op * 2 ^ 128), mask := BitVec.ofNat 136 (0xFF * 2 ^ 128) }

/-- The opcode table (R66). -/
def opcodeTable : List OpcodeRow :=
  [opcodeRow "RANK64" 0x01, opcodeRow "SELECT64" 0x02, opcodeRow "LDW" 0x03, opcodeRow "STW" 0x04, opcodeRow "REMRD" 0x05,
   opcodeRow "REMWR" 0x06, opcodeRow "GRANK" 0x07, opcodeRow "GSEL" 0x08, opcodeRow "RUNEND" 0x09, opcodeRow "FAS" 0x0A,
   opcodeRow "HOMECOV" 0x0B, opcodeRow "SPLIT" 0x0C, opcodeRow "INSERT" 0x0D, opcodeRow "MAYCON" 0x0E, opcodeRow "CLEAR" 0x0F,
   opcodeRow "RDCSR" 0x10]

/-- The mnemonic of each command (R66). -/
def Instr.mnemonic : Instr → String
  | .rank64 _ _ => "RANK64"
  | .select64 _ _ => "SELECT64"
  | .ldw _ => "LDW"
  | .stw _ _ => "STW"
  | .remrd _ => "REMRD"
  | .remwr _ _ => "REMWR"
  | .grank _ => "GRANK"
  | .gsel _ => "GSEL"
  | .runend _ => "RUNEND"
  | .fas _ => "FAS"
  | .homecov _ => "HOMECOV"
  | .split _ => "SPLIT"
  | .insert _ => "INSERT"
  | .maycon _ => "MAYCON"
  | .clear => "CLEAR"
  | .rdcsr _ => "RDCSR"

/-- The operand `(h0 << r) | h1` of the two QR pseudo-commands (R70). -/
def qrHash (c : Config) (h0 h1 : Nat) : Word := BitVec.ofNat 64 (h0 <<< c.r ||| h1)

/-- The one command a pseudo-command stands for (R70). -/
def Pseudo.expand (c : Config) : Pseudo → Instr
  | .new => .clear
  | .insertQR h0 h1 => .insert (qrHash c h0 h1)
  | .mayconQR h0 h1 => .maycon (qrHash c h0 h1)

/-- The command word whose bits are `w`, numbered as the opcode table numbers them; the bits at `nbits` and above are zero. -/
def commandOfBits (nbits w : Nat) : Command := BitVec.ofNat 136 (w % 2 ^ nbits)

/-- The instruction the decoder reads from the word whose bits are `w`, `none` where it rejects it. -/
def decodeTableWord (nbits w : Nat) : Option Instr :=
  match decode (commandOfBits nbits w) with
  | .ok i => some i
  | .error _ => none

end Sys2Proof
end

