-- ==== Sys2Proof/Machine/State.lean ====
section
/-! DEFINITION. The machine's state (10_state.md), its reset value (R34), and the reasons a step can stop. -/

namespace Sys2Proof.Machine

/-- The six status codes a command can end with (60_exceptions.md R150); codes 6 and 7 are never produced. -/
inductive Status where
  | ok
  | overflow
  | illegal
  | badArg
  | uninit
  | corrupt
  deriving DecidableEq, Repr

/-- The contents of the block store: (word address, word) pairs, addresses strictly rising, no word zero. An address that is not
listed reads zero, which is what CLEAR leaves (20_memory.md R41); while INIT = 0 the store has no value at all and no command
reads this (70_reset_and_hazards.md R171; log 3). -/
structure Memory where
  cells : List (Nat × Word)
  deriving DecidableEq, Repr

/-- One sample of the pins the host drives (30_encoding.md R60). -/
structure Pins where
  rst : Bool
  cmdValid : Bool
  cmd : Command
  rspReady : Bool
  deriving DecidableEq, Repr

/-- The state of the unit (10_state.md R20 to R34). `cfg` is hardwired and no step writes it (log 1); `inputs` is the model's own
field, the samples of the host's pins that are still to be read, oldest first (log 4). -/
structure State where
  /-- The build parameters (R6); CSR 0 to 7 are functions of them (R25). -/
  cfg : Config
  /-- The block store `M` (R27). -/
  mem : Memory
  /-- Flag INIT: the store holds defined values (R24). -/
  init : Bool
  /-- Flag FAULT, sticky (R24, R156). -/
  fault : Bool
  /-- Flag BUSY, and the control FSM's mode: IDLE is false (R23, R24). -/
  busy : Bool
  /-- Response latch ST (R22). -/
  st : Status
  /-- Response latch D0 (R22). -/
  d0 : Word
  /-- Response latch D1 (R22). -/
  d1 : Word
  /-- A response is waiting to be taken (R60, R176). -/
  rspValid : Bool
  /-- Command latch OP (R21). -/
  op : BitVec 8
  /-- Command latch A (R21). -/
  a : Word
  /-- Command latch B (R21). -/
  b : Word
  /-- The samples of the host's pins still to be read. -/
  inputs : List Pins
  deriving DecidableEq, Repr

/-- Why the machine stops with a fault. There is no such reason: every command is total in every state (10_state.md R31) and its errors
are statuses of its response (60_exceptions.md R155). -/
inductive Fault where
  deriving DecidableEq, Repr

/-- Why a step has no meaning. -/
inductive Refusal where
  /-- Raised by `exec` for an instruction whose meaning is not written yet; no arm raises it in this model. Safe. -/
  | notModelled (mnemonic : String)
  deriving DecidableEq, Repr

/-- An instance with these parameters right after reset (R34). The store has no value (INIT = 0, R171); OP, A and B are unspecified
(R21), here zero (DESIGN CHOICE, log 2); no input is waiting (log 4). -/
def State.resetOf (c : Config) : State :=
  { cfg := c
    mem := { cells := [] }
    init := false
    fault := false
    busy := false
    st := .ok
    d0 := 0#64
    d1 := 0#64
    rspValid := false
    op := 0#8
    a := 0#64
    b := 0#64
    inputs := [] }

/-- The machine right after reset: the default instance (R8, log 1). -/
def State.reset : State := State.resetOf Config.default

end Sys2Proof.Machine
end

