-- ==== Sys2Proof/Machine/Flags.lean ====
section
/-! DEFINITION. Everything computed about the status code and the flags: code numbers, which statuses set FAULT (60_exceptions.md R150,
R156), and the FLAGS register (10_state.md R26). -/

namespace Sys2Proof.Machine

/-- The code of a status in ST, 3 bits (R150). -/
def Status.code : Status → BitVec 3
  | .ok => 0
  | .overflow => 1
  | .illegal => 2
  | .badArg => 3
  | .uninit => 4
  | .corrupt => 5

/-- The status sets FAULT: the four programmer errors do, OVERFLOW does not (R150, R156). -/
def Status.setsFault : Status → Bool
  | .ok => false
  | .overflow => false
  | .illegal => true
  | .badArg => true
  | .uninit => true
  | .corrupt => true

/-- FAULT after a command that ends with status `st`: sticky (R24, R156). -/
def faultAfter (fault : Bool) (st : Status) : Bool := fault || st.setsFault

/-- CSR 8, FLAGS: bit 0 INIT, bit 1 FAULT, bit 2 (BUSY) and above read 0 (R26). -/
def flagsWord (init fault : Bool) : Word := (if init then 1#64 else 0#64) ||| ((if fault then 1#64 else 0#64) <<< 1)

end Sys2Proof.Machine
end

