-- ==== Sys2Proof/Machine/Ops.lean ====
section
/-! DEFINITION. The named operations: memory words (20_memory.md R41), the layout of a block (R43), the slot accessors and the
remainder barrel shifter (41_block_store.md R90 to R96), how a command ends (60_exceptions.md R155) and the port operations
(30_encoding.md R60, R176; 70_reset_and_hazards.md R170). -/

namespace Sys2Proof.Machine

/-! ### The block store as words -/

/-- The word listed at an address, zero where none is listed. -/
def lookupCell : List (Nat × Word) → Nat → Word
  | [], _ => 0#64
  | (k, w) :: rest, addr => if k = addr then w else lookupCell rest addr

/-- The list with the word at an address replaced, kept canonical: zero is not listed. -/
def storeCell : List (Nat × Word) → Nat → Word → List (Nat × Word)
  | [], addr, v => if v = 0#64 then [] else [(addr, v)]
  | (k, w) :: rest, addr, v =>
    if addr < k then (if v = 0#64 then (k, w) :: rest else (addr, v) :: (k, w) :: rest)
    else if addr = k then (if v = 0#64 then rest else (addr, v) :: rest)
    else (k, w) :: storeCell rest addr v

/-- `MemRead(addr, 1)`, also `M[addr]` (R41). Meaningful for `addr < NWORDS` once INIT = 1; every caller checks both. -/
def Memory.read (m : Memory) (addr : Nat) : Word := lookupCell m.cells addr

/-- `MemWrite(addr, 1, v)` (R41). -/
def Memory.write (m : Memory) (addr : Nat) (v : Word) : Memory := { cells := storeCell m.cells addr v }

/-- The store every word of which is zero (R139). -/
def Memory.zero : Memory := { cells := [] }

/-- The addresses are strictly rising from `lo` up and no word is zero. -/
def cellsCanonical : Nat → List (Nat × Word) → Bool
  | _, [] => true
  | lo, (k, w) :: rest => decide (lo ≤ k) && decide (w ≠ 0#64) && cellsCanonical (k + 1) rest

/-- The store is in its one canonical form: addresses strictly rising, no entry equal to what an unlisted address reads as. -/
def Memory.wf (m : Memory) : Bool := cellsCanonical 0 m.cells

/-- Every listed address is an address of the block store of this instance (R40, R50). -/
def Memory.inRange (c : Config) (m : Memory) : Bool := m.cells.all fun cell => decide (cell.1 < c.nwords)

/-! ### The layout of a block -/

/-- `OFFW(j)`, the address of block j's offset word (R43). -/
def offWord (c : Config) (j : Nat) : Nat := j * c.bw

/-- `OCCW(j)`, the address of block j's occupieds word (R43). -/
def occWord (c : Config) (j : Nat) : Nat := j * c.bw + 1

/-- `RUNW(j)`, the address of block j's runends word (R43). -/
def runWord (c : Config) (j : Nat) : Nat := j * c.bw + 2

/-- `REMW(j, w)`, the address of word w of block j's remainder field (R43). -/
def remWord (c : Config) (j w : Nat) : Nat := j * c.bw + 3 + w

/-! ### The bitmaps -/

/-- `Occ(s)`, the occupancy bit of slot s (R91). -/
def slotOcc (c : Config) (m : Memory) (s : Nat) : Bool := (m.read (occWord c (s / 64))).getLsbD (s % 64)

/-- `Run(s)`, the run-end bit of slot s (R92). -/
def slotRun (c : Config) (m : Memory) (s : Nat) : Bool := (m.read (runWord c (s / 64))).getLsbD (s % 64)

/-- A bit as a word: 0 or 1. -/
def bitWord (v : Bool) : Word := if v then 1#64 else 0#64

/-- A word with bit b replaced by v and its other 63 bits unchanged (R94). -/
def replaceBit (w : Word) (b : Nat) (v : Bool) : Word := (w &&& ~~~(1#64 <<< b)) ||| (bitWord v <<< b)

/-- `SetOcc(s, v)` (R94). -/
def setOcc (c : Config) (m : Memory) (s : Nat) (v : Bool) : Memory :=
  m.write (occWord c (s / 64)) (replaceBit (m.read (occWord c (s / 64))) (s % 64) v)

/-- `SetRun(s, v)` (R94). -/
def setRun (c : Config) (m : Memory) (s : Nat) (v : Bool) : Memory :=
  m.write (runWord c (s / 64)) (replaceBit (m.read (runWord c (s / 64))) (s % 64) v)

/-! ### The remainder barrel shifter -/

/-- `w` of R45: the word of the remainder field in which the lane of slot s begins. -/
def laneWord (c : Config) (s : Nat) : Nat := s % 64 * c.r / 64

/-- `o` of R45: the bit of that word at which the lane begins. -/
def laneShift (c : Config) (s : Nat) : Nat := s % 64 * c.r % 64

/-- The lane of slot s straddles two words (R45). -/
def straddles (c : Config) (s : Nat) : Bool := decide (laneShift c s + c.r > 64)

/-- The address of the word in which the lane of slot s begins. -/
def laneAddr (c : Config) (s : Nat) : Nat := remWord c (s / 64) (laneWord c s)

/-- `Rem(s)`, the unpack path (R93). The next word's part is shifted on 64 bits, not on naturals: the bits lost lie at 64 and above,
which the mask clears (log 9). -/
def slotRem (c : Config) (m : Memory) (s : Nat) : Word :=
  let lo := m.read (laneAddr c s) >>> laneShift c s
  let hi := if straddles c s then m.read (laneAddr c s + 1) <<< (64 - laneShift c s) else 0#64
  (lo ||| hi) &&& c.rmask

/-- `RemWrite(s, v)`, the pack path: the whole lane is replaced, and no bit outside it changes (R95). -/
def remWrite (c : Config) (m : Memory) (s : Nat) (v : Word) : Memory :=
  let o := laneShift c s
  let addr := laneAddr c s
  let m1 := m.write addr ((m.read addr &&& ~~~(c.rmask <<< o)) ||| (v <<< o))
  if straddles c s then
    let sh := 64 - o
    m1.write (addr + 1) ((m1.read (addr + 1) &&& ~~~(c.rmask >>> sh)) ||| (v >>> sh))
  else m1

/-- `CopySlot(k)`: slot k - 1 onto slot k, remainder and run-end bit (R96). -/
def copySlot (c : Config) (m : Memory) (k : Nat) : Memory :=
  setRun c (remWrite c m k (slotRem c m (k - 1))) k (slotRun c m (k - 1))

/-! ### How a command ends -/

/-- The end of every command: ST, D0 and D1 are written once (R22), FAULT as the status says (R156), BUSY is cleared (R24) and the
response is presented (R60). -/
def State.respond (s : State) (st : Status) (x y : Word) : State :=
  { s with st := st, d0 := x, d1 := y, fault := faultAfter s.fault st, busy := false, rspValid := true }

/-- A command ends OK with these data words (R150). -/
def State.finish (s : State) (x y : Word) : State := s.respond .ok x y

/-- TAKING AN EXCEPTION: a command ends with a non-OK status; both data words are zero, FAULT is set unless the status is OVERFLOW,
the store and INIT are unchanged, nothing else is saved and the unit is IDLE again (R155, R160). -/
def State.raise (s : State) (st : Status) : State := s.respond st 0#64 0#64

/-- A command that touches the store: UNINIT while INIT = 0, when the store has no value (R153, R171); else it goes on with the store. -/
def State.withStore (s : State) (k : Memory → State) : State := if s.init then k s.mem else s.raise .uninit

/-! ### The ports -/

/-- Every pin low: what the unit samples when no sample is waiting (log 4). -/
def Pins.quiet : Pins := { rst := false, cmdValid := false, cmd := 0, rspReady := false }

/-- The pins the unit samples in this step. -/
def State.pins (s : State) : Pins := s.inputs.head?.getD Pins.quiet

/-- The state once this step's sample has been read. -/
def State.consumeInput (s : State) : State := { s with inputs := s.inputs.tail }

/-- Pin `cmd_ready`: IDLE and no response waiting (R60, R176). -/
def State.cmdReady (s : State) : Bool := !s.busy && !s.rspValid

/-- Pins `rsp`: the response word (R63). -/
def State.rsp (s : State) : Response := s.st.code ++ s.d1 ++ s.d0

/-- The output pins (R60). -/
structure OutPins where
  cmdReady : Bool
  rspValid : Bool
  rsp : Response
  busy : Bool
  initDone : Bool
  fault : Bool
  deriving DecidableEq, Repr

/-- What the unit drives (R60). -/
def State.outPins (s : State) : OutPins :=
  { cmdReady := s.cmdReady, rspValid := s.rspValid, rsp := s.rsp, busy := s.busy, initDone := s.init, fault := s.fault }

/-- A command word is accepted: its fields are latched and the unit is BUSY (R21, R24, R61). This is also the whole "return" from a
command that ended with an error: the next command is accepted as after OK (R160). -/
def State.accept (s : State) (w : Command) : State :=
  { s with op := Command.op w, a := Command.a w, b := Command.b w, busy := true }

/-- The waiting response is taken by the host (R60); the latches keep their values (R22). -/
def State.deliver (s : State) : State := { s with rspValid := false }

/-- Reset: every piece of state at its reset value (R34, R170), whatever the unit was doing (R172); the instance is the same one and
the samples still to be read are the host's. -/
def State.resetNow (s : State) : State := { State.resetOf s.cfg with inputs := s.inputs }

/-- The command word held in the latches (R21). -/
def State.latched (s : State) : Command := Command.pack s.op s.a s.b

end Sys2Proof.Machine
end

