-- ==== Sys2Proof/Machine/BitPrimitives.lean ====
section
/-! DEFINITION. The rank-select bit primitive unit (40_bit_primitives.md): Rank, Select, RANK64, SELECT64. -/

namespace Sys2Proof.Machine

/-- `popcount(W)`: the number of i in 0..63 with W[i] = 1 (00_scope.md R11). The zero word is answered at once, so that a scan of an
empty store evaluates quickly. -/
def popcount (w : Word) : Nat := if w = 0#64 then 0 else (List.range 64).countP fun i => w.getLsbD i

/-- `Rank(W, i)`: the popcount of W under the mask `2^(i+1) - 1`, a natural (R80). -/
def rank (w : Word) (i : Nat) : Nat := popcount (w &&& BitVec.ofNat 64 (2 ^ (i + 1) - 1))

/-- `Select(W, k)` for k >= 1: the position p with W[p] = 1 and Rank(W, p) = k, or the sentinel 64 (R82). -/
def select (w : Word) (k : Nat) : Nat := ((List.range 64).find? fun p => w.getLsbD p && decide (rank w p = k)).getD 64

/-- RANK64 (R81). -/
def execRank64 (a b : Word) (s : State) : Host.Outcome State Fault Refusal :=
  .next (if b.toNat > 63 then s.raise .badArg
    else s.finish (BitVec.ofNat 64 (rank a b.toNat)) 0#64)

/-- SELECT64 (R83). -/
def execSelect64 (a b : Word) (s : State) : Host.Outcome State Fault Refusal :=
  .next (if b.toNat = 0 then s.raise .badArg
    else s.finish (BitVec.ofNat 64 (select a b.toNat)) 0#64)

end Sys2Proof.Machine
end

