-- ==== Sys2Proof/Machine/BlockStore.lean ====
section
/-! DEFINITION. The commands that expose the block store and the barrel shifter (41_block_store.md): LDW, STW, REMRD, REMWR. -/

namespace Sys2Proof.Machine

/-- LDW (R97). -/
def execLdw (a : Word) (s : State) : Host.Outcome State Fault Refusal :=
  .next (if a.toNat ≥ s.cfg.nwords then s.raise .badArg
    else s.withStore fun m => s.finish (m.read a.toNat) 0#64)

/-- STW (R98). -/
def execStw (a b : Word) (s : State) : Host.Outcome State Fault Refusal :=
  .next (if a.toNat ≥ s.cfg.nwords then s.raise .badArg
    else s.withStore fun m => { s with mem := m.write a.toNat b }.finish 0#64 0#64)

/-- REMRD: D0 is the remainder, D1 bit 0 the occupancy bit and bit 1 the run-end bit (R99). -/
def execRemrd (a : Word) (s : State) : Host.Outcome State Fault Refusal :=
  .next (if a.toNat ≥ s.cfg.nslots then s.raise .badArg
    else s.withStore fun m => s.finish (slotRem s.cfg m a.toNat)
      (bitWord (slotOcc s.cfg m a.toNat) ||| (bitWord (slotRun s.cfg m a.toNat) <<< 1)))

/-- REMWR (R100). -/
def execRemwr (a b : Word) (s : State) : Host.Outcome State Fault Refusal :=
  .next (if a.toNat ≥ s.cfg.nslots ∨ b.toNat > s.cfg.rmask.toNat then s.raise .badArg
    else s.withStore fun m => { s with mem := remWrite s.cfg m a.toNat b }.finish 0#64 0#64)

end Sys2Proof.Machine
end

