-- ==== Sys2Proof/Machine/Navigator.lean ====
section
/-! DEFINITION. The run navigator (42_run_navigator.md): whole-filter rank and select, the first available slot, and the commands
GRANK, GSEL, RUNEND, FAS, HOMECOV. -/

namespace Sys2Proof.Machine

/-- The set occupancy bits of blocks 0 to n - 1, summed block by block onto `t` (R110). -/
def occBefore (c : Config) (m : Memory) : Nat → Nat
  | 0 => 0
  | j + 1 => occBefore c m j + popcount (m.read (occWord c j))

/-- `GRank(s)`: the set occupancy bits at slots 0 to s (R110). -/
def gRank (c : Config) (m : Memory) (s : Nat) : Nat :=
  occBefore c m (s / 64) + rank (m.read (occWord c (s / 64))) (s % 64)

/-- The scan of GSelect over `n` blocks from block j on, `t` run-ends still to be found (R111). -/
def gSelectFrom (c : Config) (m : Memory) : Nat → Nat → Nat → Nat
  | 0, _, _ => c.nslots
  | n + 1, j, t =>
    let w := m.read (runWord c j)
    if t ≤ popcount w then 64 * j + select w t else gSelectFrom c m n (j + 1) (t - popcount w)

/-- `GSelect(t)` for t >= 1: the slot of the t-th set run-end bit, or the sentinel NSLOTS (R111). -/
def gSelect (c : Config) (m : Memory) (t : Nat) : Nat := gSelectFrom c m c.nblocks 0 t

/-- The question RUNEND, HOMECOV, FAS, INSERT and MAYCON begin with: `t = GRank(s)`; with t = 0 there is no home at or below s
(`none`); else the run-end `e = GSelect(t)` of the largest home at or below s, with t; CORRUPT where it is missing (R114, R154). -/
def runEndAt (c : Config) (m : Memory) (s : Nat) : Except Status (Option (Nat × Nat)) :=
  let t := gRank c m s
  if t = 0 then .ok none
  else
    let e := gSelect c m t
    if e = c.nslots then .error .corrupt else .ok (some (e, t))

/-- The loop of `Fas`, `fuel` rounds at most. Each round raises s, so `NSLOTS - s` rounds are enough and the answer at fuel 0 is the
one R115 gives when s has passed the last slot (R117; log 8). -/
def fasLoop (c : Config) (m : Memory) : Nat → Nat → Except Status Nat
  | 0, _ => .error .overflow
  | fuel + 1, s =>
    match runEndAt c m s with
    | .error st => .error st
    | .ok none => .ok s
    | .ok (some (e, _)) =>
      if s ≤ e then (if e + 1 ≥ c.nslots then .error .overflow else fasLoop c m fuel (e + 1))
      else .ok s

/-- `Fas(s)`: the first available slot at or after s (R115). -/
def fas (c : Config) (m : Memory) (s : Nat) : Except Status Nat := fasLoop c m (c.nslots - s) s

/-- GRANK (R112). -/
def execGrank (a : Word) (s : State) : Host.Outcome State Fault Refusal :=
  .next (if a.toNat ≥ s.cfg.nslots then s.raise .badArg
    else s.withStore fun m => s.finish (BitVec.ofNat 64 (gRank s.cfg m a.toNat)) 0#64)

/-- GSEL (R113). -/
def execGsel (a : Word) (s : State) : Host.Outcome State Fault Refusal :=
  .next (if a.toNat = 0 then s.raise .badArg
    else s.withStore fun m => s.finish (BitVec.ofNat 64 (gSelect s.cfg m a.toNat)) 0#64)

/-- RUNEND: D0 = e and D1 = t, both 0 when no home lies at or below the slot (R114). -/
def execRunend (a : Word) (s : State) : Host.Outcome State Fault Refusal :=
  .next (if a.toNat ≥ s.cfg.nslots then s.raise .badArg
    else s.withStore fun m =>
      match runEndAt s.cfg m a.toNat with
      | .error st => s.raise st
      | .ok none => s.finish 0#64 0#64
      | .ok (some (e, t)) => s.finish (BitVec.ofNat 64 e) (BitVec.ofNat 64 t))

/-- FAS (R115). -/
def execFas (a : Word) (s : State) : Host.Outcome State Fault Refusal :=
  .next (if a.toNat ≥ s.cfg.nslots then s.raise .badArg
    else s.withStore fun m =>
      match fas s.cfg m a.toNat with
      | .error st => s.raise st
      | .ok n => s.finish (BitVec.ofNat 64 n) 0#64)

/-- HOMECOV (R116). -/
def execHomecov (a : Word) (s : State) : Host.Outcome State Fault Refusal :=
  .next (if a.toNat ≥ s.cfg.nslots then s.raise .badArg
    else s.withStore fun m =>
      match runEndAt s.cfg m a.toNat with
      | .error st => s.raise st
      | .ok none => s.finish 0#64 0#64
      | .ok (some (e, _)) => s.finish (bitWord (decide (e ≥ a.toNat))) 0#64)

end Sys2Proof.Machine
end

