-- ==== Sys2Proof/Machine/Filter.lean ====
section
/-! DEFINITION. The filter operations (43_filter_ops.md): the hash split, the collision resolver of INSERT, MAYCON's walk, CLEAR and the
register read; commands SPLIT, INSERT, MAYCON, CLEAR, RDCSR. -/

namespace Sys2Proof.Machine

/-- `h0` of the hash split: the quotient (R130). -/
def hashHome (c : Config) (h : Word) : Word := (h &&& c.qmask) >>> c.r

/-- `h1` of the hash split: the remainder (R130). -/
def hashRem (c : Config) (h : Word) : Word := h &&& c.rmask

/-- Step 4 of INSERT: `for k downto k - n + 1: CopySlot(k)`, n slots, highest first (R132, R135). -/
def shiftRight (c : Config) : Nat → Nat → Memory → Memory
  | 0, _, m => m
  | n + 1, k, m => shiftRight c n (k - 1) (copySlot c m k)

/-- Step 2 of INSERT, the empty home: the run is the one slot h0 (R132, R133). -/
def insertEmptyHome (c : Config) (m : Memory) (h0 : Nat) (h1 : Word) : Memory :=
  setOcc c (setRun c (remWrite c m h0 h1) h0 true) h0 true

/-- Steps 4 to 7 of INSERT at the insertion point `e + 1`, with `n` the first free slot (R132, R135, R136). -/
def insertAfter (c : Config) (m : Memory) (h0 : Nat) (h1 : Word) (e n : Nat) : Memory :=
  let sx := e + 1
  let was := slotOcc c m h0
  let m4 := shiftRight c (n - sx) n m
  let m5 := remWrite c m4 sx h1
  let m6 := setRun c (if was then setRun c m5 (sx - 1) false else m5) sx true
  setOcc c m6 h0 true

/-- INSERT on the store: the new store, or the status it raises before it has written anything (R132). -/
def insertStore (c : Config) (m : Memory) (h : Word) : Except Status Memory :=
  let h0 := (hashHome c h).toNat
  let h1 := hashRem c h
  match runEndAt c m h0 with
  | .error st => .error st
  | .ok none => .ok (insertEmptyHome c m h0 h1)
  | .ok (some (e, _)) =>
    if e < h0 then .ok (insertEmptyHome c m h0 h1)
    else
      match fas c m h0 with
      | .error st => .error st
      | .ok n => .ok (insertAfter c m h0 h1 e n)

/-- Step 3 of MAYCON: the walk backward from slot l, with the stop tests in the order of R137: below the home, the remainder, slot 0,
the first slot of the run. -/
def walkBack (c : Config) (m : Memory) (h0 : Nat) (h1 : Word) : Nat → Bool
  | 0 => if 0 < h0 then false else decide (slotRem c m 0 = h1)
  | l + 1 =>
    if l + 1 < h0 then false
    else if slotRem c m (l + 1) = h1 then true
    else if slotRun c m l then false
    else walkBack c m h0 h1 l

/-- MAYCON on the store (R137). With Occ(h0) = 1 the rank is at least 1; the case of no home is never reached (log 10). -/
def mayContain (c : Config) (m : Memory) (h : Word) : Except Status Bool :=
  let h0 := (hashHome c h).toNat
  let h1 := hashRem c h
  if slotOcc c m h0 then
    match runEndAt c m h0 with
    | .error st => .error st
    | .ok none => .ok false
    | .ok (some (e, _)) => .ok (walkBack c m h0 h1 e)
  else .ok false

/-- The value of CSR n, 0 to 8 (10_state.md R25, R26). -/
def csrValue (s : State) : Nat → Option Word
  | 0 => some (BitVec.ofNat 64 s.cfg.q)
  | 1 => some (BitVec.ofNat 64 s.cfg.r)
  | 2 => some (BitVec.ofNat 64 s.cfg.p)
  | 3 => some s.cfg.qmask
  | 4 => some s.cfg.rmask
  | 5 => some (BitVec.ofNat 64 s.cfg.nblocks)
  | 6 => some (BitVec.ofNat 64 s.cfg.nslots)
  | 7 => some (BitVec.ofNat 64 s.cfg.nwords)
  | 8 => some (flagsWord s.init s.fault)
  | _ => none

/-- SPLIT (R131). -/
def execSplit (a : Word) (s : State) : Host.Outcome State Fault Refusal :=
  .next (s.finish (hashHome s.cfg a) (hashRem s.cfg a))

/-- INSERT (R132). -/
def execInsert (a : Word) (s : State) : Host.Outcome State Fault Refusal :=
  .next (s.withStore fun m =>
    match insertStore s.cfg m a with
    | .error st => s.raise st
    | .ok m' => { s with mem := m' }.finish 0#64 0#64)

/-- MAYCON (R137). -/
def execMaycon (a : Word) (s : State) : Host.Outcome State Fault Refusal :=
  .next (s.withStore fun m =>
    match mayContain s.cfg m a with
    | .error st => s.raise st
    | .ok found => s.finish (bitWord found) 0#64)

/-- CLEAR: every word of the store is zero and INIT is set; FAULT stays (R139; log 10). -/
def execClear (s : State) : Host.Outcome State Fault Refusal :=
  .next ({ s with mem := Memory.zero, init := true }.finish 0#64 0#64)

/-- RDCSR (R140). -/
def execRdcsr (a : Word) (s : State) : Host.Outcome State Fault Refusal :=
  .next (match csrValue s a.toNat with
    | none => s.raise .badArg
    | some v => s.finish v 0#64)

end Sys2Proof.Machine
end

