-- ==== Sys2Proof/Machine/Dispatch.lean ====
section
/-! DEFINITION. One arm per command (30_encoding.md R66). -/

namespace Sys2Proof.Machine

def exec (i : Instr) (s : State) : Host.Outcome State Fault Refusal :=
  match i with
  | .rank64 a b => Sys2Proof.Machine.execRank64 a b s
  | .select64 a b => Sys2Proof.Machine.execSelect64 a b s
  | .ldw a => Sys2Proof.Machine.execLdw a s
  | .stw a b => Sys2Proof.Machine.execStw a b s
  | .remrd a => Sys2Proof.Machine.execRemrd a s
  | .remwr a b => Sys2Proof.Machine.execRemwr a b s
  | .grank a => Sys2Proof.Machine.execGrank a s
  | .gsel a => Sys2Proof.Machine.execGsel a s
  | .runend a => Sys2Proof.Machine.execRunend a s
  | .fas a => Sys2Proof.Machine.execFas a s
  | .homecov a => Sys2Proof.Machine.execHomecov a s
  | .split a => Sys2Proof.Machine.execSplit a s
  | .insert a => Sys2Proof.Machine.execInsert a s
  | .maycon a => Sys2Proof.Machine.execMaycon a s
  | .clear => Sys2Proof.Machine.execClear s
  | .rdcsr a => Sys2Proof.Machine.execRdcsr a s

end Sys2Proof.Machine
end

