-- ==== Sys2Proof/Machine/Latched.lean ====
section
/-! DEFINITION. The execution of the command held in the latches (10_state.md R21), and one step of the ports (30_encoding.md R60,
70_reset_and_hazards.md R170, R172, R176). -/

namespace Sys2Proof.Machine

/-- The latched command is decoded and executed; an illegal opcode ends with ILLEGAL before any operand or state is looked at
(60_exceptions.md R151). -/
def execLatched (s : State) : Host.Outcome State Fault Refusal :=
  match decode s.latched with
  | .ok i => exec i s
  | .error _ => .next (s.raise .illegal)

/-- What the unit does with one sample of the pins, the first of these that applies: it is reset (R170, also while BUSY, R172); it
executes the latched command (BUSY, R24); it delivers the waiting response when the host takes it, and waits when not (R176); it
accepts the presented command (R60); it stays IDLE (R167; log 5, log 13). -/
def stepWith (p : Pins) (s : State) : Host.Outcome State Fault Refusal :=
  if p.rst then .next s.resetNow
  else if s.busy then execLatched s
  else if s.rspValid then .next (if p.rspReady then s.deliver else s)
  else .next (if p.cmdValid then s.accept p.cmd else s)

/-- The state in which the next step executes the command word `w`: it stands in the latches as if just accepted, the unit is BUSY
with no response waiting, and if samples of the pins are waiting the next one read is quiet, so that no reset comes first (log 7). -/
def State.withLatched (s : State) (w : Command) : State :=
  { s.accept w with
    rspValid := false
    inputs := match s.inputs with
      | [] => []
      | p :: rest => Pins.quiet :: p :: rest }

end Sys2Proof.Machine
end

