-- ==== Sys2Proof/Machine/Step.lean ====
section
/-! DEFINITION. One step of the machine. The unit has no program counter (10_state.md R23): its next instruction is the command in its
latches OP, A, B, which it executes while BUSY (R21, R24). -/

namespace Sys2Proof.Machine

/-- One step: the next sample of the host's pins is read and the unit acts on it. -/
def step (s : State) : Host.Outcome State Fault Refusal := stepWith s.pins s.consumeInput

/-- `s` with the command word whose bits are `w` stored where step takes its next instruction from: the latches. -/
def State.withFetchWord (s : State) (nbits w : Nat) : State := s.withLatched (commandOfBits nbits w)

end Sys2Proof.Machine
end

