-- ==== Sys2Proof/Machine/Invariant.lean ====
section
/-! DEFINITION. The invariant of the unit's state: what holds of it after reset and after every step. -/

namespace Sys2Proof.Machine

/-- The unit's invariant. The parameters are legal (00_scope.md R6); the store is in its canonical form, inside the address space
(20_memory.md R40) and without a value while INIT = 0 (70_reset_and_hazards.md R171); a command never executes while a response waits
(R176); a response that is not OK carries zero data words (30_encoding.md R63); FAULT = 0 means the last response was OK or
OVERFLOW (60_exceptions.md R156). -/
structure State.Inv (s : State) : Prop where
  legal : s.cfg.Legal
  memWf : s.mem.wf = true
  memRange : s.mem.inRange s.cfg = true
  noValue : s.init = false → s.mem = Memory.zero
  oneAtATime : s.busy = true → s.rspValid = false
  zeroData : s.st ≠ .ok → s.d0 = 0#64 ∧ s.d1 = 0#64
  noFault : s.fault = false → s.st = .ok ∨ s.st = .overflow

end Sys2Proof.Machine
end

