-- ==== Sys2Proof/Machine/Runs.lean ====
section
/-! DEFINITION. What a store means as a filter (10_state.md R30): homes, run-ends, runs, empty slots, the remainders of a run, and the
well-formed store. No command reads these; they are what claims about a filter are stated in. -/

namespace Sys2Proof.Machine

/-- The slots with Occ = 1, rising: `h_1 < h_2 < …` (R30). -/
def homes (c : Config) (m : Memory) : List Nat := (List.range c.nslots).filter fun s => slotOcc c m s

/-- The slots with Run = 1, rising: `e_1 < e_2 < …` (R30). -/
def runEnds (c : Config) (m : Memory) : List Nat := (List.range c.nslots).filter fun s => slotRun c m s

/-- The store is well-formed: as many homes as run-ends, and the k-th run-end is at or above the k-th home (R30, I1 to I3 and I5). -/
abbrev StoreWellFormed (c : Config) (m : Memory) : Prop := List.Forall₂ (fun h e => h ≤ e) (homes c m) (runEnds c m)

/-- A run: its home, its first slot and its last slot. -/
structure Run where
  home : Nat
  first : Nat
  last : Nat
  deriving DecidableEq, Repr

/-- The runs of rising homes and rising run-ends, none starting below `lo`: `a_k = max(h_k, e_(k-1) + 1)` (R30). -/
def runsFrom : Nat → List Nat → List Nat → List Run
  | lo, h :: hs, e :: es => { home := h, first := max h lo, last := e } :: runsFrom (e + 1) hs es
  | _, _, _ => []

/-- The runs of the store, lowest first (R30). -/
def runs (c : Config) (m : Memory) : List Run := runsFrom 0 (homes c m) (runEnds c m)

/-- The slot lies in a run (R30). -/
def slotCovered (c : Config) (m : Memory) (s : Nat) : Bool := (runs c m).any fun u => decide (u.first ≤ s) && decide (s ≤ u.last)

/-- The remainders stored for a home, lowest slot first; none for a slot that is no home (R29, R30, R138 (c)). -/
def storedAt (c : Config) (m : Memory) (h : Nat) : List Word :=
  match (runs c m).find? fun u => decide (u.home = h) with
  | none => []
  | some u => (List.range' u.first (u.last + 1 - u.first)).map (slotRem c m)

/-- The remainder field of block j as one number, `F(j)` (20_memory.md R44): word w of it at weight `2^(64*w)`, summed over n words. -/
def remFieldUpTo (c : Config) (m : Memory) (j : Nat) : Nat → Nat
  | 0 => 0
  | n + 1 => remFieldUpTo c m j n + (m.read (remWord c j n)).toNat * 2 ^ (64 * n)

/-- `F(j)` (20_memory.md R44). -/
def remField (c : Config) (m : Memory) (j : Nat) : Nat := remFieldUpTo c m j c.r

/-- The homes at or below slot s, counted slot by slot: what GRank(s) is equivalent to (42_run_navigator.md R110). -/
def homesUpTo (c : Config) (m : Memory) (s : Nat) : Nat := (List.range (s + 1)).countP fun i => slotOcc c m i

/-- The t-th run-end counted slot by slot, for t >= 1, if there is one: what GSelect(t) is equivalent to (42_run_navigator.md R111). -/
def runEndNo (c : Config) (m : Memory) (t : Nat) : Option Nat := (runEnds c m)[t - 1]?

/-- The rounds of `Fas` as a relation between the slot a round begins with and the answer, with no bound on their number
(42_run_navigator.md R115): no home at or below s; a missing run-end; s covered up to the last slot; s covered, and round again after
the run-end; s free. -/
inductive FasRounds (c : Config) (m : Memory) : Nat → Except Status Nat → Prop where
  | noHome (s : Nat) : homesUpTo c m s = 0 → FasRounds c m s (.ok s)
  | missing (s : Nat) : homesUpTo c m s ≠ 0 → runEndNo c m (homesUpTo c m s) = none → FasRounds c m s (.error .corrupt)
  | past (s e : Nat) : homesUpTo c m s ≠ 0 → runEndNo c m (homesUpTo c m s) = some e → s ≤ e → c.nslots ≤ e + 1 →
      FasRounds c m s (.error .overflow)
  | covered (s e : Nat) (answer : Except Status Nat) : homesUpTo c m s ≠ 0 → runEndNo c m (homesUpTo c m s) = some e → s ≤ e →
      e + 1 < c.nslots → FasRounds c m (e + 1) answer → FasRounds c m s answer
  | free (s e : Nat) : homesUpTo c m s ≠ 0 → runEndNo c m (homesUpTo c m s) = some e → e < s → FasRounds c m s (.ok s)

/-- The word addresses a write of slot x's remainder and run-end bit goes to: its lane's one or two words and its block's runends word
(20_memory.md R42, R45). -/
def slotWords (c : Config) (x : Nat) : List Nat :=
  (if straddles c x then [laneAddr c x, laneAddr c x + 1] else [laneAddr c x]) ++ [runWord c (x / 64)]

/-- The lane of every empty slot is zero (R138 (b)). -/
def EmptyLanesZero (c : Config) (m : Memory) : Prop := ∀ s, s < c.nslots → slotCovered c m s = false → slotRem c m s = 0#64

end Sys2Proof.Machine
end

