-- ==== Sys2Proof/WellFormed.lean ====
section
/-! DEFINITION. Well-formed commands: those whose operands are all in their legal range (30_encoding.md R64). Every command, well-formed
or not, has an encoding and is executed; one that is not well-formed ends with status BADARG (60_exceptions.md R152). -/

namespace Sys2Proof

/-- Every operand the command reads is in the range R64 gives it on this instance. -/
abbrev Instr.WellFormed (c : Config) (i : Instr) : Prop := i.operandsLegal c = true

end Sys2Proof
end

