-- ==== Sys2Proof/Safety.lean ====
section
/-! DEFINITION. What counts as a safe use of the unit, in the terms claims use: no programmer error so far, the host's duty on the command
port, no raw write, a store fit for the filter's guarantees, and a run of INSERTs that all succeed. -/

namespace Sys2Proof.Machine

/-- No command since reset has ended with a programmer error (60_exceptions.md R156). -/
def State.clean (s : State) : Bool := !s.fault

/-- The command may break the store's invariants: STW and REMWR (70_reset_and_hazards.md R177). -/
def rawWrite : Instr → Bool
  | .rank64 _ _ => false
  | .select64 _ _ => false
  | .ldw _ => false
  | .stw _ _ => true
  | .remrd _ => false
  | .remwr _ _ => true
  | .grank _ => false
  | .gsel _ => false
  | .runend _ => false
  | .fas _ => false
  | .homecov _ => false
  | .split _ => false
  | .insert _ => false
  | .maycon _ => false
  | .clear => false
  | .rdcsr _ => false

/-- The host's duty at one step (R176): a command presented and not accepted is presented again, unchanged, in the next sample. R176
asks that `cmd` be stable while `cmd_valid` is high. That `cmd_valid` must also be high again in the next sample, and that neither is
asked of a sample with `rst` high or of one before it, are the model's reading (DESIGN CHOICE, log 19). After the last listed sample the
pins are quiet (log 4), so a command left unaccepted there is dropped and the duty is broken. No statement rests on it. -/
def State.holdsCommand (s : State) : Bool :=
  let now := s.pins
  let after := s.consumeInput.pins
  now.rst || !now.cmdValid || s.cmdReady || after.rst || (after.cmdValid && decide (after.cmd = now.cmd))

/-- The end of a command with status OK and these data words: nothing but the response changes, and the unit is IDLE (10_state.md R22,
R24). A command that also writes the store ends so from the state with the new store. -/
def endOk (s : State) (x y : Word) : State := { s with st := .ok, d0 := x, d1 := y, busy := false, rspValid := true }

/-- The end of a command with one of the four programmer errors: the response, with zero data words, and FAULT = 1; nothing else
(60_exceptions.md R155). -/
def endError (s : State) (st : Status) : State :=
  { s with st := st, d0 := 0#64, d1 := 0#64, fault := true, busy := false, rspValid := true }

/-- The end of a command with OVERFLOW: the response, with zero data words; nothing else (60_exceptions.md R157). -/
def endOverflow (s : State) : State :=
  { s with st := .overflow, d0 := 0#64, d1 := 0#64, busy := false, rspValid := true }

/-- The end of a command with a status the search of a free slot can raise: CORRUPT, or OVERFLOW (R154, R157). -/
def endSearch (s : State) (st : Status) : State := if st = .overflow then endOverflow s else endError s st

/-- A store the filter's guarantees speak of (R177): well-formed, with zero lanes in its empty slots. -/
def FilterStore (c : Config) (m : Memory) : Prop := StoreWellFormed c m ∧ EmptyLanesZero c m

/-- The state after these INSERTs, in order, when every one of them ends OK; `none` as soon as one does not. -/
def afterInserts : State → List Word → Option State
  | s, [] => some s
  | s, h :: hs =>
    match exec (.insert h) s with
    | .next t => if t.st = .ok then afterInserts t hs else none
    | .fault _ => none
    | .refused _ => none

end Sys2Proof.Machine
end

