-- ==== Sys2Proof/Certificates/Slice0/Obligations.lean ====
section
/-! DEFINITION. The statements for the provers. A command's end is written with `endOk`, `endError`, `endOverflow` and `endSearch` of
Safety.lean, which are record updates: whatever they do not name is unchanged, so each such equation says the whole frame. -/

open Sys2Proof Sys2Proof.Machine

/-! ### Encoding and decoding -/

/-- The two directions of the encoding (30_encoding.md R61, R62, R65, R66): a command's word decodes to it, and a word that decodes to a
command differs from that command's own word in ignored operand fields alone. -/
def Obligations.EncodeThenDecode : Prop :=
  (∀ i : Instr, decode (encode i) = .ok i) ∧
  ∀ (w : Command) (i : Instr), decode w = .ok i →
    encode i = Command.pack (Command.op w) (if i.format = .f0 then 0#64 else Command.a w)
      (if i.format = .f2 then Command.b w else 0#64)

/-- Decoding rejects opcodes 0x00 and 0x11 to 0xFF, by name, and nothing else (30_encoding.md R65, R67). -/
def Obligations.DecodeRejectsIllegalOpcodesOnly : Prop :=
  ∀ w : Command,
    decode w = .error (.illegalOpcode (Command.op w)) ↔ ((Command.op w).toNat = 0 ∨ 0x11 ≤ (Command.op w).toNat)

/-- Decoding is selection by the opcode table's mask and match over the whole command word (30_encoding.md R65, R66). -/
def Obligations.DecodeFollowsOpcodeTable : Prop :=
  ∀ w : Command,
    (∀ i, decode w = .ok i → ∃ row ∈ opcodeTable, w &&& row.mask = row.pattern ∧ row.mnemonic = i.mnemonic) ∧
    (∀ row ∈ opcodeTable, w &&& row.mask = row.pattern → ∃ i, decode w = .ok i ∧ i.mnemonic = row.mnemonic)

/-- Six command words written out from R61, one or two of each family, decode to what they stand for; the first is R61's own example. -/
def Obligations.WrittenWordsDecode : Prop :=
  decode 0x01000000000000003F00000000000000EE#136 = .ok (.rank64 0xEE#64 0x3F#64) ∧
  decode 0x0200000000000000028800000000000000#136 = .ok (.select64 0x8800000000000000#64 2#64) ∧
  decode 0x0400000000DEADBEEF0000000000000007#136 = .ok (.stw 7#64 0xDEADBEEF#64) ∧
  decode 0x0A00000000000000000000000000000080#136 = .ok (.fas 0x80#64) ∧
  decode 0x0F00000000000004560000000000000123#136 = .ok .clear ∧
  decode 0x1000000000000000000000000000000008#136 = .ok (.rdcsr 8#64)

/-- The pseudo-commands: each is one command, the QR forms' operand is h0 above the r bits of h1 with every bit from P up zero, and it
splits back into its two parts (30_encoding.md R70). -/
def Obligations.PseudoCommandsSplitBack : Prop :=
  ∀ (c : Config) (h0 h1 : Nat), c.Legal → h0 < 2 ^ c.q → h1 < 2 ^ c.r →
    Pseudo.expand c .new = .clear ∧
    ∃ x : Word, Pseudo.expand c (.insertQR h0 h1) = .insert x ∧ Pseudo.expand c (.mayconQR h0 h1) = .maycon x ∧
      x.toNat = h0 * 2 ^ c.r + h1 ∧ (hashHome c x).toNat = h0 ∧ (hashRem c x).toNat = h1

/-! ### The step and the ports -/

/-- A step of a BUSY unit that is not being reset executes the command in its latches, on the state with this step's sample read
(00_scope.md R5, 10_state.md R21). -/
def Obligations.StepExecutesLatchedCommand : Prop :=
  ∀ (s : State) (i : Instr), s.pins.rst = false → s.busy = true → decode s.latched = .ok i → step s = exec i s.consumeInput

/-- The word placed by withFetchWord is what the very next step executes, with that word's fields in the latches. -/
def Obligations.StepRunsFetchWord : Prop :=
  ∀ (s : State) (nbits w : Nat) (i : Instr), decodeTableWord nbits w = some i →
    step (s.withFetchWord nbits w) = exec i (s.withFetchWord nbits w).consumeInput ∧
    (s.withFetchWord nbits w).consumeInput =
      { s with op := Command.op (commandOfBits nbits w), a := Command.a (commandOfBits nbits w),
               b := Command.b (commandOfBits nbits w), busy := true, rspValid := false }

/-- An illegal opcode ends with ILLEGAL in every state, whatever its operands, and no command of the table ever does
(60_exceptions.md R151, with R155 for the effect). -/
def Obligations.IllegalOpcodeEndsIllegal : Prop :=
  (∀ s : State, s.pins.rst = false → s.busy = true → (s.op.toNat = 0 ∨ 0x11 ≤ s.op.toNat) →
    step s = .next (endError s.consumeInput .illegal)) ∧
  ∀ (i : Instr) (s t : State), exec i s = .next t → t.st ≠ .illegal

/-- A command word presented while `cmd_ready` is high is accepted: its fields are latched and the unit is BUSY, and nothing else changes
(30_encoding.md R60, R61; 10_state.md R21, R24). -/
def Obligations.StepAcceptsPresentedCommand : Prop :=
  ∀ (s : State) (p : Pins) (ps : List Pins), s.inputs = p :: ps → p.rst = false → s.cmdReady = true → p.cmdValid = true →
    step s = .next { s with op := p.cmd.extractLsb' 128 8, b := p.cmd.extractLsb' 64 64, a := p.cmd.extractLsb' 0 64,
                            busy := true, inputs := ps }

/-- While a command executes or a response waits no command is accepted, whatever is presented: the latches do not change, and the unit
is not BUSY after the step (70_reset_and_hazards.md R176). That the latches keep their value while a command executes is 10_state.md
R21; that they do while a response waits, between commands, is the model's choice (DESIGN CHOICE, log 2), which R21 leaves open. -/
def Obligations.NoAcceptanceWhileBusyOrWaiting : Prop :=
  ∀ s t : State, s.pins.rst = false → s.cmdReady = false → step s = .next t →
    t.op = s.op ∧ t.a = s.a ∧ t.b = s.b ∧ t.busy = false

/-- A waiting response is held unchanged until a step in which the host takes it, and is gone then (70_reset_and_hazards.md R176). That
the state is otherwise the same takes in the latches OP, A and B, whose value between commands is the model's choice (DESIGN CHOICE,
log 2). -/
def Obligations.ResponseHeldUntilTaken : Prop :=
  ∀ s : State, s.pins.rst = false → s.busy = false → s.rspValid = true →
    ∃ t, step s = .next t ∧ t.rsp = s.rsp ∧ t.rspValid = !s.pins.rspReady ∧ t = { s with rspValid := !s.pins.rspReady, inputs := s.inputs.tail }

/-- An IDLE unit with no response waiting and no command presented does nothing (60_exceptions.md R167). That takes in the latches OP, A
and B, whose value between commands is the model's choice (DESIGN CHOICE, log 2). -/
def Obligations.IdleStepChangesNothing : Prop :=
  ∀ s : State, s.pins.rst = false → s.cmdReady = true → s.pins.cmdValid = false → step s = .next { s with inputs := s.inputs.tail }

/-- What the unit drives, in every state: the response word is the status code of ST in bits 130:128, D1 in bits 127:64 and D0 in bits
63:0 (30_encoding.md R63, 60_exceptions.md R150), and the other output pins are the flags they are named for, `cmd_ready` high only in
IDLE with no response waiting (30_encoding.md R60). -/
def Obligations.OutputPinsShowState : Prop :=
  ∀ s : State,
    ((s.st = .ok → s.rsp.extractLsb' 128 3 = 0#3) ∧ (s.st = .overflow → s.rsp.extractLsb' 128 3 = 1#3) ∧
      (s.st = .illegal → s.rsp.extractLsb' 128 3 = 2#3) ∧ (s.st = .badArg → s.rsp.extractLsb' 128 3 = 3#3) ∧
      (s.st = .uninit → s.rsp.extractLsb' 128 3 = 4#3) ∧ (s.st = .corrupt → s.rsp.extractLsb' 128 3 = 5#3)) ∧
    s.rsp.extractLsb' 64 64 = s.d1 ∧ s.rsp.extractLsb' 0 64 = s.d0 ∧
    s.outPins = { cmdReady := !s.busy && !s.rspValid, rspValid := s.rspValid, rsp := s.rsp, busy := s.busy, initDone := s.init,
                  fault := s.fault }

/-- A sample with `rst` high resets the unit in any state, while BUSY too: no response is produced, a waiting one is dropped, and the
store has no value again (70_reset_and_hazards.md R170 to R172). -/
def Obligations.ResetSampleResets : Prop :=
  ∀ s : State, s.pins.rst = true → ∃ t, step s = .next t ∧ t.cfg = s.cfg ∧ t.init = false ∧ t.fault = false ∧ t.busy = false ∧
    t.st = .ok ∧ t.d0 = 0#64 ∧ t.d1 = 0#64 ∧ t.rspValid = false ∧ t.cmdReady = true ∧ t.inputs = s.inputs.tail ∧
    ∀ i : Instr, i.operandsLegal t.cfg = true → i.touchesStore = true → exec i t = .next (endError t .uninit)

/-- The reset state: the values of 10_state.md R34, on the default instance (R8; that reset is on this instance is the model's choice,
log 1), and every command that touches the store answers UNINIT there. -/
def Obligations.ResetStateValues : Prop :=
  State.reset.cfg.q = 17 ∧ State.reset.cfg.r = 9 ∧
  State.reset.outPins = { cmdReady := true, rspValid := false, rsp := 0#131, busy := false, initDone := false, fault := false } ∧
  State.reset.d0 = 0#64 ∧ State.reset.d1 = 0#64 ∧ State.reset.st = .ok ∧
  ∀ i : Instr, i.operandsLegal State.reset.cfg = true → i.touchesStore = true → exec i State.reset = .next (endError State.reset .uninit)

/-- While INIT = 0 the content of the store cannot be observed: whatever it is taken to be, every command answers the same and leaves it
alone, and CLEAR leaves the same state (70_reset_and_hazards.md R171). -/
def Obligations.StoreUnobservableBeforeClear : Prop :=
  ∀ (i : Instr) (s : State) (m : Memory) (t : State), s.init = false → exec i s = .next t →
    exec i { s with mem := m } = .next (if i = .clear then t else { t with mem := m })

/-- Every step keeps the unit's invariant, from every state that has it. -/
def Obligations.StepKeepsInvariant : Prop :=
  ∀ s t : State, s.Inv → step s = .next t → t.Inv

/-- The reset state of every legal instance has the invariant. -/
def Obligations.ResetHasInvariant : Prop :=
  State.reset.Inv ∧ ∀ c : Config, c.Legal → (State.resetOf c).Inv

/-- Every command and every step answers a next state: the unit is total and cannot hang or stop (10_state.md R31, 43_filter_ops.md
R141). -/
def Obligations.EveryCommandAndStepAnswers : Prop :=
  (∀ (i : Instr) (s : State), ∃ t, exec i s = .next t) ∧ ∀ s : State, ∃ t, step s = .next t

/-! ### Statuses and flags -/

/-- BADARG is answered exactly when an operand the command reads is outside its legal range, in every state (60_exceptions.md R152, R155;
its place before UNINIT is R158). -/
def Obligations.BadArgExactlyOutsideLegalRange : Prop :=
  ∀ (i : Instr) (s : State),
    (¬ i.WellFormed s.cfg → exec i s = .next (endError s .badArg)) ∧
    (∀ t, i.WellFormed s.cfg → exec i s = .next t → t.st ≠ .badArg)

/-- UNINIT is answered exactly by a command that touches the store, with legal operands, while INIT = 0 (60_exceptions.md R153, R155,
R158). -/
def Obligations.UninitExactlyBeforeClear : Prop :=
  ∀ (i : Instr) (s : State),
    (i.WellFormed s.cfg → i.touchesStore = true → s.init = false → exec i s = .next (endError s .uninit)) ∧
    (∀ t, exec i s = .next t → t.st = .uninit → i.WellFormed s.cfg ∧ i.touchesStore = true ∧ s.init = false)

/-- A command that ends with a status other than OK changes the response and FAULT alone: zero data words, FAULT set but for OVERFLOW, the
store, INIT and everything else as before, the unit IDLE. So it is for every command, and for every step that executes the latched word,
an illegal one too; and once the response is taken the next command is accepted as after OK (60_exceptions.md R155). -/
def Obligations.ErrorChangesOnlyResponseAndFault : Prop :=
  (∀ (i : Instr) (s t : State), exec i s = .next t → t.st ≠ .ok →
    t = if t.st = .overflow then endOverflow s else endError s t.st) ∧
  ∀ s t : State, s.pins.rst = false → s.busy = true → step s = .next t → t.st ≠ .ok →
    t = (if t.st = .overflow then endOverflow s.consumeInput else endError s.consumeInput t.st) ∧
    ∀ (p : Pins) (ps : List Pins), p.rst = false → p.cmdValid = true →
      step { t with rspValid := false, inputs := p :: ps } =
        .next { t with rspValid := false, op := Command.op p.cmd, a := Command.a p.cmd, b := Command.b p.cmd, busy := true, inputs := ps }

/-- FAULT is sticky: no step but a reset clears it, and it is set only by a command that ends with one of the four programmer errors
(60_exceptions.md R156). -/
def Obligations.FaultClearedOnlyByReset : Prop :=
  ∀ s t : State, step s = .next t →
    (s.fault = true → (t.fault = true ↔ s.pins.rst = false)) ∧
    (s.fault = false → (t.fault = true ↔ (s.pins.rst = false ∧ s.busy = true ∧
      (t.st = .illegal ∨ t.st = .badArg ∨ t.st = .uninit ∨ t.st = .corrupt))))

/-- FAULT changes the behaviour of no command: two states that differ in FAULT alone give answers that differ in FAULT alone, but for the
read of FLAGS, which returns it (60_exceptions.md R156, 10_state.md R24). -/
def Obligations.FaultDoesNotChangeBehaviour : Prop :=
  ∀ (i : Instr) (s t : State) (f : Bool), exec i s = .next t → i ≠ .rdcsr 8#64 →
    ∃ g, exec i { s with fault := f } = .next { t with fault := g }

/-- CORRUPT is answered only by RUNEND, FAS, HOMECOV, INSERT and MAYCON, and only where some slot has homes at or below it and the filter
has fewer run-ends than that (60_exceptions.md R154). -/
def Obligations.CorruptMeansMissingRunEnd : Prop :=
  ∀ (i : Instr) (s t : State), s.cfg.Legal → exec i s = .next t → t.st = .corrupt →
    (∃ a, i = .runend a ∨ i = .fas a ∨ i = .homecov a ∨ i = .insert a ∨ i = .maycon a) ∧
    ∃ x, x < s.cfg.nslots ∧ homesUpTo s.cfg s.mem x ≠ 0 ∧ runEndNo s.cfg s.mem (homesUpTo s.cfg s.mem x) = none

/-- OVERFLOW is answered only by FAS and INSERT, and only where the search met a run-end at the last slot; FAULT stays as it was and the
store is unchanged (60_exceptions.md R157). -/
def Obligations.OverflowMeansRunAtLastSlot : Prop :=
  ∀ (i : Instr) (s t : State), s.cfg.Legal → exec i s = .next t → t.st = .overflow →
    (∃ a, i = .fas a ∨ i = .insert a) ∧ t = endOverflow s ∧
    ∃ x e, x < s.cfg.nslots ∧ homesUpTo s.cfg s.mem x ≠ 0 ∧ runEndNo s.cfg s.mem (homesUpTo s.cfg s.mem x) = some e ∧
      x ≤ e ∧ e + 1 = s.cfg.nslots

/-! ### Frames -/

/-- What no command changes, whatever its status: the instance, the command latches, the host's samples; INIT but for CLEAR; every word of
the store but for STW, REMWR, INSERT and CLEAR; and FAULT is set by the four programmer errors alone (20_memory.md R42, 10_state.md R21,
R24). -/
def Obligations.CommandFrame : Prop :=
  ∀ (i : Instr) (s t : State), exec i s = .next t →
    t.cfg = s.cfg ∧ t.op = s.op ∧ t.a = s.a ∧ t.b = s.b ∧ t.inputs = s.inputs ∧ t.busy = false ∧ t.rspValid = true ∧
    (i ≠ .clear → t.init = s.init) ∧
    (i.writesStore = false → ∀ addr, t.mem.read addr = s.mem.read addr) ∧
    t.fault = (s.fault || decide (t.st ≠ .ok ∧ t.st ≠ .overflow))

/-- INSERT never writes an offset word (20_memory.md R42, 10_state.md R32). -/
def Obligations.InsertNeverWritesOffsetWords : Prop :=
  ∀ (s t : State) (h : Word), s.cfg.Legal → exec (.insert h) s = .next t →
    ∀ j, j < s.cfg.nblocks → t.mem.read (offWord s.cfg j) = s.mem.read (offWord s.cfg j)

/-! ### The bit primitives -/

/-- RANK64: the number of set bits at positions 0 to b (40_bit_primitives.md R80, R81). -/
def Obligations.Rank64CountsBits : Prop :=
  (∀ w : Command, Command.op w = 0x01#8 → decode w = .ok (.rank64 (Command.a w) (Command.b w))) ∧
  ∀ (a b : Word) (s : State),
    (63 < b.toNat → exec (.rank64 a b) s = .next (endError s .badArg)) ∧
    (b.toNat ≤ 63 → exec (.rank64 a b) s =
      .next (endOk s (BitVec.ofNat 64 ((List.range (b.toNat + 1)).countP fun j => a.getLsbD j)) 0#64))

/-- SELECT64: the position of the b-th set bit, or 64 when there are fewer (40_bit_primitives.md R82, R83). -/
def Obligations.Select64FindsBit : Prop :=
  (∀ w : Command, Command.op w = 0x02#8 → decode w = .ok (.select64 (Command.a w) (Command.b w))) ∧
  ∀ (a b : Word) (s : State),
    (b.toNat = 0 → exec (.select64 a b) s = .next (endError s .badArg)) ∧
    (1 ≤ b.toNat → ∃ p, exec (.select64 a b) s = .next (endOk s (BitVec.ofNat 64 p) 0#64) ∧
      ((p < 64 ∧ a.getLsbD p = true ∧ ((List.range (p + 1)).countP fun j => a.getLsbD j) = b.toNat) ∨
       (p = 64 ∧ ((List.range 64).countP fun j => a.getLsbD j) < b.toNat)))

/-- The laws of Rank and Select: P3, P4, P5 and the derived ones (40_bit_primitives.md R84). -/
def Obligations.RankSelectLaws : Prop :=
  (∀ (w : Word) (i : Nat), i ≤ 63 → rank w i = popcount (w &&& BitVec.ofNat 64 (2 ^ (i + 1) - 1))) ∧
  (∀ (w : Word) (k : Nat), 1 ≤ k → k ≤ popcount w →
    select w k < 64 ∧ w.getLsbD (select w k) = true ∧ rank w (select w k) = k) ∧
  (∀ (w : Word) (k : Nat), popcount w < k → select w k = 64) ∧
  (∀ (w : Word) (p : Nat), w.getLsbD p = true → select w (rank w p) = p) ∧
  (∀ w : Word, rank w 63 = popcount w ∧ rank w 0 = (w.getLsbD 0).toNat) ∧
  (∀ (w : Word) (i j : Nat), i ≤ j → j ≤ 63 → rank w i ≤ rank w j) ∧
  (∀ i, rank 0#64 i = 0) ∧ (∀ k, 1 ≤ k → select 0#64 k = 64) ∧
  (∀ (w : Word), w ≠ 0#64 → w.getLsbD (select w 1) = true ∧ ∀ j, j < select w 1 → w.getLsbD j = false) ∧
  (∀ k, 1 ≤ k → k ≤ 64 → select (BitVec.allOnes 64) k = k - 1)

/-! ### The block store -/

/-- LDW: the word at the address; nothing changes but the response (41_block_store.md R97). -/
def Obligations.LdwReadsWord : Prop :=
  (∀ w : Command, Command.op w = 0x03#8 → decode w = .ok (.ldw (Command.a w))) ∧
  ∀ (a : Word) (s : State),
    (s.cfg.nwords ≤ a.toNat → exec (.ldw a) s = .next (endError s .badArg)) ∧
    (a.toNat < s.cfg.nwords → s.init = false → exec (.ldw a) s = .next (endError s .uninit)) ∧
    (a.toNat < s.cfg.nwords → s.init = true → exec (.ldw a) s = .next (endOk s (s.mem.read a.toNat) 0#64))

/-- STW: the word at the address is replaced and no other word changes (41_block_store.md R98, 20_memory.md R41). -/
def Obligations.StwWritesWord : Prop :=
  (∀ w : Command, Command.op w = 0x04#8 → decode w = .ok (.stw (Command.a w) (Command.b w))) ∧
  ∀ (a b : Word) (s : State), s.mem.wf = true →
    (s.cfg.nwords ≤ a.toNat → exec (.stw a b) s = .next (endError s .badArg)) ∧
    (a.toNat < s.cfg.nwords → s.init = false → exec (.stw a b) s = .next (endError s .uninit)) ∧
    (a.toNat < s.cfg.nwords → s.init = true → ∃ m, exec (.stw a b) s = .next (endOk { s with mem := m } 0#64 0#64) ∧
      m.read a.toNat = b ∧ ∀ addr, addr ≠ a.toNat → m.read addr = s.mem.read addr)

/-- REMRD: D0 is the slot's lane of the remainder field, D1 its occupancy and run-end bits (41_block_store.md R99, 20_memory.md R44). -/
def Obligations.RemrdDecodesSlot : Prop :=
  (∀ w : Command, Command.op w = 0x05#8 → decode w = .ok (.remrd (Command.a w))) ∧
  ∀ (a : Word) (s : State), s.cfg.Legal →
    (s.cfg.nslots ≤ a.toNat → exec (.remrd a) s = .next (endError s .badArg)) ∧
    (a.toNat < s.cfg.nslots → s.init = false → exec (.remrd a) s = .next (endError s .uninit)) ∧
    (a.toNat < s.cfg.nslots → s.init = true → exec (.remrd a) s = .next (endOk s
      (BitVec.ofNat 64 (remField s.cfg s.mem (a.toNat / 64) / 2 ^ (a.toNat % 64 * s.cfg.r) % 2 ^ s.cfg.r))
      (BitVec.ofNat 64 (((s.mem.read (occWord s.cfg (a.toNat / 64))).getLsbD (a.toNat % 64)).toNat +
        2 * ((s.mem.read (runWord s.cfg (a.toNat / 64))).getLsbD (a.toNat % 64)).toNat))))

/-- REMWR: the slot's lane is replaced; no other lane, no bitmap bit and no word outside the lane's one or two changes
(41_block_store.md R95, R100). -/
def Obligations.RemwrReplacesLane : Prop :=
  (∀ w : Command, Command.op w = 0x06#8 → decode w = .ok (.remwr (Command.a w) (Command.b w))) ∧
  ∀ (a b : Word) (s : State), s.cfg.Legal → s.mem.wf = true →
    (s.cfg.nslots ≤ a.toNat ∨ 2 ^ s.cfg.r ≤ b.toNat → exec (.remwr a b) s = .next (endError s .badArg)) ∧
    (a.toNat < s.cfg.nslots → b.toNat < 2 ^ s.cfg.r → s.init = false → exec (.remwr a b) s = .next (endError s .uninit)) ∧
    (a.toNat < s.cfg.nslots → b.toNat < 2 ^ s.cfg.r → s.init = true →
      ∃ m, exec (.remwr a b) s = .next (endOk { s with mem := m } 0#64 0#64) ∧
        (∀ x, x < s.cfg.nslots → slotRem s.cfg m x = if x = a.toNat then b else slotRem s.cfg s.mem x) ∧
        (∀ x, x < s.cfg.nslots → slotOcc s.cfg m x = slotOcc s.cfg s.mem x ∧ slotRun s.cfg m x = slotRun s.cfg s.mem x) ∧
        ∀ addr, addr ≠ laneAddr s.cfg a.toNat → (straddles s.cfg a.toNat = true → addr ≠ laneAddr s.cfg a.toNat + 1) →
          m.read addr = s.mem.read addr)

/-! ### The run navigator -/

/-- GRANK: the number of homes at or below the slot (42_run_navigator.md R110, R112). -/
def Obligations.GrankCountsHomes : Prop :=
  (∀ w : Command, Command.op w = 0x07#8 → decode w = .ok (.grank (Command.a w))) ∧
  ∀ (a : Word) (s : State),
    (s.cfg.nslots ≤ a.toNat → exec (.grank a) s = .next (endError s .badArg)) ∧
    (a.toNat < s.cfg.nslots → s.init = false → exec (.grank a) s = .next (endError s .uninit)) ∧
    (a.toNat < s.cfg.nslots → s.init = true →
      exec (.grank a) s = .next (endOk s (BitVec.ofNat 64 (homesUpTo s.cfg s.mem a.toNat)) 0#64))

/-- GSEL: the slot of the a-th run-end of the filter, or NSLOTS when there are fewer (42_run_navigator.md R111, R113). -/
def Obligations.GselFindsRunEnd : Prop :=
  (∀ w : Command, Command.op w = 0x08#8 → decode w = .ok (.gsel (Command.a w))) ∧
  ∀ (a : Word) (s : State), s.cfg.Legal →
    (a.toNat = 0 → exec (.gsel a) s = .next (endError s .badArg)) ∧
    (1 ≤ a.toNat → s.init = false → exec (.gsel a) s = .next (endError s .uninit)) ∧
    (1 ≤ a.toNat → s.init = true →
      exec (.gsel a) s = .next (endOk s (BitVec.ofNat 64 ((runEndNo s.cfg s.mem a.toNat).getD s.cfg.nslots)) 0#64))

/-- RUNEND: the run-end of the largest home at or below the slot with its number; 0 and 0 when there is no home; CORRUPT when that run-end
is missing (42_run_navigator.md R114). -/
def Obligations.RunendFindsEndOfRun : Prop :=
  (∀ w : Command, Command.op w = 0x09#8 → decode w = .ok (.runend (Command.a w))) ∧
  ∀ (a : Word) (s : State), s.cfg.Legal →
    (s.cfg.nslots ≤ a.toNat → exec (.runend a) s = .next (endError s .badArg)) ∧
    (a.toNat < s.cfg.nslots → s.init = false → exec (.runend a) s = .next (endError s .uninit)) ∧
    (a.toNat < s.cfg.nslots → s.init = true →
      (homesUpTo s.cfg s.mem a.toNat = 0 → exec (.runend a) s = .next (endOk s 0#64 0#64)) ∧
      (homesUpTo s.cfg s.mem a.toNat ≠ 0 → runEndNo s.cfg s.mem (homesUpTo s.cfg s.mem a.toNat) = none →
        exec (.runend a) s = .next (endError s .corrupt)) ∧
      (∀ e, homesUpTo s.cfg s.mem a.toNat ≠ 0 → runEndNo s.cfg s.mem (homesUpTo s.cfg s.mem a.toNat) = some e →
        exec (.runend a) s = .next (endOk s (BitVec.ofNat 64 e) (BitVec.ofNat 64 (homesUpTo s.cfg s.mem a.toNat)))))

/-- FAS: the answer of R115's rounds, which always end (42_run_navigator.md R115, R117). -/
def Obligations.FasAnswersItsRounds : Prop :=
  (∀ w : Command, Command.op w = 0x0A#8 → decode w = .ok (.fas (Command.a w))) ∧
  ∀ (a : Word) (s : State), s.cfg.Legal →
    (s.cfg.nslots ≤ a.toNat → exec (.fas a) s = .next (endError s .badArg)) ∧
    (a.toNat < s.cfg.nslots → s.init = false → exec (.fas a) s = .next (endError s .uninit)) ∧
    (a.toNat < s.cfg.nslots → s.init = true →
      (∃ n, FasRounds s.cfg s.mem a.toNat (.ok n) ∧ exec (.fas a) s = .next (endOk s (BitVec.ofNat 64 n) 0#64)) ∨
      (∃ st, FasRounds s.cfg s.mem a.toNat (.error st) ∧ exec (.fas a) s = .next (endSearch s st)))

/-- FAS completes: where the rounds of R115 reach a free slot, that slot is the answer, with status OK. -/
def Obligations.FasCompletesWhenRoundsReachSlot : Prop :=
  ∀ (a : Word) (s : State) (n : Nat), s.cfg.Legal → a.toNat < s.cfg.nslots → s.init = true →
    FasRounds s.cfg s.mem a.toNat (.ok n) → exec (.fas a) s = .next (endOk s (BitVec.ofNat 64 n) 0#64)

/-- HOMECOV: 1 when the run-end of the largest home at or below the slot is at or above it, else 0; 0 when there is no home
(42_run_navigator.md R116, conflict C2). -/
def Obligations.HomecovComparesRunEnd : Prop :=
  (∀ w : Command, Command.op w = 0x0B#8 → decode w = .ok (.homecov (Command.a w))) ∧
  ∀ (a : Word) (s : State), s.cfg.Legal →
    (s.cfg.nslots ≤ a.toNat → exec (.homecov a) s = .next (endError s .badArg)) ∧
    (a.toNat < s.cfg.nslots → s.init = false → exec (.homecov a) s = .next (endError s .uninit)) ∧
    (a.toNat < s.cfg.nslots → s.init = true →
      (homesUpTo s.cfg s.mem a.toNat = 0 → exec (.homecov a) s = .next (endOk s 0#64 0#64)) ∧
      (homesUpTo s.cfg s.mem a.toNat ≠ 0 → runEndNo s.cfg s.mem (homesUpTo s.cfg s.mem a.toNat) = none →
        exec (.homecov a) s = .next (endError s .corrupt)) ∧
      (∀ e, homesUpTo s.cfg s.mem a.toNat ≠ 0 → runEndNo s.cfg s.mem (homesUpTo s.cfg s.mem a.toNat) = some e →
        exec (.homecov a) s = .next (endOk s (if a.toNat ≤ e then 1#64 else 0#64) 0#64)))

/-! ### The filter operations -/

/-- SPLIT: bits P-1 to r of the hash, and its low r bits, in every state (43_filter_ops.md R130, R131). -/
def Obligations.SplitCutsHash : Prop :=
  (∀ w : Command, Command.op w = 0x0C#8 → decode w = .ok (.split (Command.a w))) ∧
  ∀ (a : Word) (s : State), s.cfg.Legal →
    exec (.split a) s = .next (endOk s (BitVec.ofNat 64 (a.toNat / 2 ^ s.cfg.r % 2 ^ s.cfg.q)) (BitVec.ofNat 64 (a.toNat % 2 ^ s.cfg.r)))

/-- INSERT is turned away with no effect but the response and FAULT: UNINIT before CLEAR, CORRUPT when the run-end it needs is missing, and
what the search for a free slot raises when the home is obstructed (43_filter_ops.md R132, R134). -/
def Obligations.InsertTurnedAway : Prop :=
  ∀ (h : Word) (s : State), s.cfg.Legal →
    (s.init = false → exec (.insert h) s = .next (endError s .uninit)) ∧
    (s.init = true → homesUpTo s.cfg s.mem (hashHome s.cfg h).toNat ≠ 0 →
      runEndNo s.cfg s.mem (homesUpTo s.cfg s.mem (hashHome s.cfg h).toNat) = none → exec (.insert h) s = .next (endError s .corrupt)) ∧
    (∀ e st, s.init = true → homesUpTo s.cfg s.mem (hashHome s.cfg h).toNat ≠ 0 →
      runEndNo s.cfg s.mem (homesUpTo s.cfg s.mem (hashHome s.cfg h).toNat) = some e → (hashHome s.cfg h).toNat ≤ e →
      FasRounds s.cfg s.mem (hashHome s.cfg h).toNat (.error st) → exec (.insert h) s = .next (endSearch s st))

/-- INSERT into an unobstructed home: the home slot gets the remainder, its run-end bit and its occupancy bit, and nothing else of the
store changes, well-formed or not (43_filter_ops.md R132, R133). -/
def Obligations.InsertIntoEmptyHome : Prop :=
  (∀ w : Command, Command.op w = 0x0D#8 → decode w = .ok (.insert (Command.a w))) ∧
  ∀ (h : Word) (s : State) (h0 : Nat), s.cfg.Legal → s.mem.wf = true → s.init = true → h0 = h.toNat / 2 ^ s.cfg.r % 2 ^ s.cfg.q →
    (homesUpTo s.cfg s.mem h0 = 0 ∨ ∃ e, runEndNo s.cfg s.mem (homesUpTo s.cfg s.mem h0) = some e ∧ e < h0) →
    ∃ m, exec (.insert h) s = .next (endOk { s with mem := m } 0#64 0#64) ∧
      (∀ x, x < s.cfg.nslots →
        slotRem s.cfg m x = (if x = h0 then BitVec.ofNat 64 (h.toNat % 2 ^ s.cfg.r) else slotRem s.cfg s.mem x) ∧
        slotRun s.cfg m x = (decide (x = h0) || slotRun s.cfg s.mem x) ∧
        slotOcc s.cfg m x = (decide (x = h0) || slotOcc s.cfg s.mem x)) ∧
      ∀ addr, addr ∉ slotWords s.cfg h0 → addr ≠ occWord s.cfg (h0 / 64) → m.read addr = s.mem.read addr

/-- INSERT into an obstructed home, e the run-end it appends after and n the first available slot: slots e + 1 to n - 1 move up one, the
remainder is placed at e + 1 with its run-end bit, the run-end bit at e is cleared when the home had a run, the home is marked, and
nothing else of the store changes, well-formed or not (43_filter_ops.md R132, R134 to R136, R138 (a)). -/
def Obligations.InsertIntoObstructedHome : Prop :=
  ∀ (h : Word) (s : State) (h0 e n : Nat), s.cfg.Legal → s.mem.wf = true → s.init = true → h0 = h.toNat / 2 ^ s.cfg.r % 2 ^ s.cfg.q →
    homesUpTo s.cfg s.mem h0 ≠ 0 → runEndNo s.cfg s.mem (homesUpTo s.cfg s.mem h0) = some e → h0 ≤ e →
    FasRounds s.cfg s.mem h0 (.ok n) →
    ∃ m, exec (.insert h) s = .next (endOk { s with mem := m } 0#64 0#64) ∧ e + 1 ≤ n ∧ n < s.cfg.nslots ∧
      (∀ x, x < s.cfg.nslots →
        slotRem s.cfg m x = (if x = e + 1 then BitVec.ofNat 64 (h.toNat % 2 ^ s.cfg.r)
          else if e + 1 < x ∧ x ≤ n then slotRem s.cfg s.mem (x - 1) else slotRem s.cfg s.mem x) ∧
        slotRun s.cfg m x = (if x = e + 1 then true
          else if e + 1 < x ∧ x ≤ n then slotRun s.cfg s.mem (x - 1)
          else if x = e ∧ slotOcc s.cfg s.mem h0 = true then false else slotRun s.cfg s.mem x) ∧
        slotOcc s.cfg m x = (decide (x = h0) || slotOcc s.cfg s.mem x)) ∧
      ∀ addr, (∀ x, e + 1 ≤ x → x ≤ n → addr ∉ slotWords s.cfg x) → addr ≠ runWord s.cfg (e / 64) → addr ≠ occWord s.cfg (h0 / 64) →
        m.read addr = s.mem.read addr

/-- MAYCON, on any store: UNINIT before CLEAR; 0 when the home has no run; CORRUPT when its run-end is missing; else 1 exactly when the
remainder stands in a slot from the home to the run-end with no run-end bit between (43_filter_ops.md R137). -/
def Obligations.MayconWalksRun : Prop :=
  (∀ w : Command, Command.op w = 0x0E#8 → decode w = .ok (.maycon (Command.a w))) ∧
  ∀ (h : Word) (s : State) (h0 : Nat), s.cfg.Legal → h0 = h.toNat / 2 ^ s.cfg.r % 2 ^ s.cfg.q →
    (s.init = false → exec (.maycon h) s = .next (endError s .uninit)) ∧
    (s.init = true →
      (slotOcc s.cfg s.mem h0 = false → exec (.maycon h) s = .next (endOk s 0#64 0#64)) ∧
      (slotOcc s.cfg s.mem h0 = true → runEndNo s.cfg s.mem (homesUpTo s.cfg s.mem h0) = none →
        exec (.maycon h) s = .next (endError s .corrupt)) ∧
      (∀ e, slotOcc s.cfg s.mem h0 = true → runEndNo s.cfg s.mem (homesUpTo s.cfg s.mem h0) = some e →
        ∃ found : Bool, exec (.maycon h) s = .next (endOk s (if found then 1#64 else 0#64) 0#64) ∧
          (found = true ↔ ∃ l, h0 ≤ l ∧ l ≤ e ∧ slotRem s.cfg s.mem l = BitVec.ofNat 64 (h.toNat % 2 ^ s.cfg.r) ∧
            ∀ k, l ≤ k → k < e → slotRun s.cfg s.mem k = false)))

/-- CLEAR: every word of the store is zero and INIT is 1; FAULT and everything else stay, in every state (43_filter_ops.md R139). -/
def Obligations.ClearZeroesStore : Prop :=
  (∀ w : Command, Command.op w = 0x0F#8 → decode w = .ok .clear) ∧
  ∀ s : State, ∃ m, exec .clear s = .next (endOk { s with mem := m, init := true } 0#64 0#64) ∧ m.wf = true ∧
    ∀ addr, m.read addr = 0#64

/-- RDCSR: the nine registers, in every state; BADARG above 8 (43_filter_ops.md R140, 10_state.md R25, R26). -/
def Obligations.RdcsrReadsRegisters : Prop :=
  (∀ w : Command, Command.op w = 0x10#8 → decode w = .ok (.rdcsr (Command.a w))) ∧
  ∀ (a : Word) (s : State), s.cfg.Legal →
    (8 < a.toNat → exec (.rdcsr a) s = .next (endError s .badArg)) ∧
    (∀ v, [s.cfg.q, s.cfg.r, s.cfg.q + s.cfg.r, 2 ^ (s.cfg.q + s.cfg.r) - 2 ^ s.cfg.r, 2 ^ s.cfg.r - 1, 2 ^ (s.cfg.q - 6), 2 ^ s.cfg.q,
        2 ^ (s.cfg.q - 6) * (s.cfg.r + 3), s.init.toNat + 2 * s.fault.toNat][a.toNat]? = some v →
      exec (.rdcsr a) s = .next (endOk s (BitVec.ofNat 64 v) 0#64))

/-! ### The filter's guarantees, on well-formed stores -/

/-- After CLEAR the filter is empty: MAYCON answers 0 for every hash, FAS its operand, GRANK 0, GSEL the sentinel NSLOTS
(43_filter_ops.md R139). -/
def Obligations.ClearedFilterIsEmpty : Prop :=
  ∀ s t : State, s.cfg.Legal → exec .clear s = .next t →
    (∀ h : Word, exec (.maycon h) t = .next (endOk t 0#64 0#64)) ∧
    (∀ a : Word, a.toNat < t.cfg.nslots → exec (.fas a) t = .next (endOk t a 0#64) ∧ exec (.grank a) t = .next (endOk t 0#64 0#64)) ∧
    (∀ a : Word, 1 ≤ a.toNat → exec (.gsel a) t = .next (endOk t (BitVec.ofNat 64 t.cfg.nslots) 0#64))

/-- On a well-formed store FAS answers the lowest empty slot at or above its operand, or OVERFLOW when there is none
(42_run_navigator.md R115, meaning). -/
def Obligations.FasFindsLowestEmptySlot : Prop :=
  ∀ (a : Word) (s : State), s.cfg.Legal → s.init = true → StoreWellFormed s.cfg s.mem → a.toNat < s.cfg.nslots →
    (∀ n, a.toNat ≤ n → n < s.cfg.nslots → slotCovered s.cfg s.mem n = false →
      (∀ k, a.toNat ≤ k → k < n → slotCovered s.cfg s.mem k = true) → exec (.fas a) s = .next (endOk s (BitVec.ofNat 64 n) 0#64)) ∧
    ((∀ k, a.toNat ≤ k → k < s.cfg.nslots → slotCovered s.cfg s.mem k = true) → exec (.fas a) s = .next (endOverflow s))

/-- On a well-formed store HOMECOV answers 1 exactly for a covered slot, which is one whose occupancy bit is set or that lies in the run of
a lower home (42_run_navigator.md R116, meaning). -/
def Obligations.HomecovMeansCovered : Prop :=
  ∀ (a : Word) (s : State), s.cfg.Legal → s.init = true → StoreWellFormed s.cfg s.mem → a.toNat < s.cfg.nslots →
    exec (.homecov a) s = .next (endOk s (if slotCovered s.cfg s.mem a.toNat then 1#64 else 0#64) 0#64) ∧
    (slotCovered s.cfg s.mem a.toNat = true ↔ (slotOcc s.cfg s.mem a.toNat = true ∨
      ∃ u ∈ runs s.cfg s.mem, u.home < a.toNat ∧ u.first ≤ a.toNat ∧ a.toNat ≤ u.last))

/-- INSERT refines appending to a list: on a well-formed store an OK INSERT leaves a well-formed store in which the home's remainders are
those it had, in order, then the new one, and every other home's are as before (10_state.md R30, 43_filter_ops.md R138 (c), (d)). -/
def Obligations.InsertAppendsToItsHome : Prop :=
  ∀ (h : Word) (s t : State), s.cfg.Legal → s.mem.wf = true → s.init = true → StoreWellFormed s.cfg s.mem →
    exec (.insert h) s = .next t → t.st = .ok →
    StoreWellFormed t.cfg t.mem ∧
    ∀ x, x < s.cfg.nslots → storedAt t.cfg t.mem x =
      if x = (hashHome s.cfg h).toNat then storedAt s.cfg s.mem x ++ [hashRem s.cfg h] else storedAt s.cfg s.mem x

/-- On a well-formed store INSERT ends OK or OVERFLOW, and OVERFLOW exactly when the home is covered and no slot from it up is empty
(43_filter_ops.md R138 (f)). -/
def Obligations.InsertOverflowsExactlyWhenFull : Prop :=
  ∀ (h : Word) (s t : State), s.cfg.Legal → s.init = true → StoreWellFormed s.cfg s.mem → exec (.insert h) s = .next t →
    (t.st = .ok ∨ t.st = .overflow) ∧
    (t.st = .overflow ↔ ∀ x, (hashHome s.cfg h).toNat ≤ x → x < s.cfg.nslots → slotCovered s.cfg s.mem x = true)

/-- On a well-formed store MAYCON answers exactly whether the remainder is one of its home's (43_filter_ops.md R137, closed form). -/
def Obligations.MayconIsMembership : Prop :=
  ∀ (h : Word) (s : State), s.cfg.Legal → s.init = true → StoreWellFormed s.cfg s.mem →
    exec (.maycon h) s = .next (endOk s
      (if hashRem s.cfg h ∈ storedAt s.cfg s.mem (hashHome s.cfg h).toNat then 1#64 else 0#64) 0#64)

/-- No false negatives, and exactness: after CLEAR and any INSERTs that all succeed, MAYCON answers 1 exactly for the hashes whose low P
bits are those of an inserted one (43_filter_ops.md R138 (e), R137). -/
def Obligations.MayconExactAfterInserts : Prop :=
  ∀ (s t u : State) (hs : List Word), s.cfg.Legal → exec .clear s = .next t → afterInserts t hs = some u →
    ∀ x : Word, ∃ found : Bool, exec (.maycon x) u = .next (endOk u (if found then 1#64 else 0#64) 0#64) ∧
      (found = true ↔ ∃ h ∈ hs, h.toNat % 2 ^ s.cfg.p = x.toNat % 2 ^ s.cfg.p)

/-- The cluster invariant P6: after CLEAR and any INSERTs that all succeed, the homes, the run-ends and the distinct quotients inserted are
equally many (10_state.md R31, 43_filter_ops.md R138 (b)). -/
def Obligations.HomesRunEndsAndQuotientsAgree : Prop :=
  ∀ (s t u : State) (hs : List Word), s.cfg.Legal → exec .clear s = .next t → afterInserts t hs = some u →
    (homes u.cfg u.mem).length = (runEnds u.cfg u.mem).length ∧
    (homes u.cfg u.mem).length = (hs.map fun h => (hashHome s.cfg h).toNat).dedup.length

/-- A store fit for the filter's guarantees stays so: every step but one that executes STW or REMWR keeps the store well-formed with zero
lanes in its empty slots, whenever INIT = 1 (10_state.md R31, 70_reset_and_hazards.md R177). -/
def Obligations.StepKeepsFilterStore : Prop :=
  ∀ s t : State, s.Inv → (s.init = true → FilterStore s.cfg s.mem) →
    (∀ i, s.busy = true → decode s.latched = .ok i → rawWrite i = false) →
    step s = .next t → t.init = true → FilterStore t.cfg t.mem

/-- On a well-formed store no command ends with CORRUPT (60_exceptions.md R154). -/
def Obligations.NeverCorruptOnWellFormedStore : Prop :=
  ∀ (i : Instr) (s t : State), s.cfg.Legal → (s.init = true → StoreWellFormed s.cfg s.mem) → exec i s = .next t → t.st ≠ .corrupt
end

