-- ==== Sys2Proof/Laws/Memory.lean ====
section
/-! SUPPORT. The laws of the block store as words: read after write, the canonical form and the address range are kept by every write, and
a canonical store is determined by what it reads. -/

namespace Sys2Proof.Machine

/-! ### Lists of cells -/

theorem cellsCanonical_mono {lo lo' : Nat} {l : List (Nat × Word)} (h : cellsCanonical lo l = true) (hle : lo' ≤ lo) :
    cellsCanonical lo' l = true := by
  cases l with
  | nil => rfl
  | cons cell rest =>
    simp only [cellsCanonical, Bool.and_eq_true, decide_eq_true_eq] at h ⊢
    exact ⟨⟨by omega, h.1.2⟩, h.2⟩

theorem lookupCell_below {lo addr : Nat} {l : List (Nat × Word)} (h : cellsCanonical lo l = true) (hlt : addr < lo) :
    lookupCell l addr = 0#64 := by
  induction l generalizing lo with
  | nil => rfl
  | cons cell rest ih =>
    simp only [cellsCanonical, Bool.and_eq_true, decide_eq_true_eq] at h
    have hne : cell.1 ≠ addr := by omega
    simp only [lookupCell, if_neg hne]
    exact ih h.2 (by omega)

theorem lookupCell_storeCell_same {lo : Nat} {l : List (Nat × Word)} (h : cellsCanonical lo l = true) (addr : Nat) (v : Word) :
    lookupCell (storeCell l addr v) addr = v := by
  induction l generalizing lo with
  | nil => by_cases hv : v = 0#64 <;> simp [storeCell, hv, lookupCell]
  | cons cell rest ih =>
    obtain ⟨k, w⟩ := cell
    simp only [cellsCanonical, Bool.and_eq_true, decide_eq_true_eq] at h
    by_cases hlt : addr < k
    · by_cases hv : v = 0#64
      · have hne : k ≠ addr := by omega
        simp only [storeCell, if_pos hlt, if_pos hv, lookupCell, if_neg hne]
        rw [lookupCell_below h.2 (by omega), hv]
      · simp [storeCell, hlt, hv, lookupCell]
    · by_cases heq : addr = k
      · by_cases hv : v = 0#64
        · simp only [storeCell, if_neg hlt, if_pos heq, if_pos hv]
          rw [lookupCell_below h.2 (by omega), hv]
        · simp [storeCell, heq, hv, lookupCell]
      · have hne : k ≠ addr := fun hk => heq hk.symm
        simp only [storeCell, if_neg hlt, if_neg heq, lookupCell, if_neg hne]
        exact ih h.2

theorem lookupCell_storeCell_ne (l : List (Nat × Word)) {addr addr' : Nat} (v : Word) (hne : addr' ≠ addr) :
    lookupCell (storeCell l addr v) addr' = lookupCell l addr' := by
  induction l with
  | nil => by_cases hv : v = 0#64 <;> simp [storeCell, hv, lookupCell, hne.symm]
  | cons cell rest ih =>
    obtain ⟨k, w⟩ := cell
    by_cases hlt : addr < k
    · by_cases hv : v = 0#64 <;> simp [storeCell, hlt, hv, lookupCell, hne.symm]
    · by_cases heq : addr = k
      · subst heq
        by_cases hv : v = 0#64 <;> simp [storeCell, hv, lookupCell, hne.symm]
      · simp only [storeCell, if_neg hlt, if_neg heq, lookupCell, ih]

theorem storeCell_canonical {lo addr : Nat} {l : List (Nat × Word)} (h : cellsCanonical lo l = true) (v : Word) (hle : lo ≤ addr) :
    cellsCanonical lo (storeCell l addr v) = true := by
  induction l generalizing lo with
  | nil => by_cases hv : v = 0#64 <;> simp [storeCell, hv, cellsCanonical, hle]
  | cons cell rest ih =>
    obtain ⟨k, w⟩ := cell
    have h' := h
    simp only [cellsCanonical, Bool.and_eq_true, decide_eq_true_eq] at h'
    by_cases hlt : addr < k
    · by_cases hv : v = 0#64
      · simpa [storeCell, hlt, hv] using h
      · simp only [storeCell, if_pos hlt, if_neg hv, cellsCanonical, Bool.and_eq_true, decide_eq_true_eq]
        exact ⟨⟨hle, hv⟩, ⟨by omega, h'.1.2⟩, h'.2⟩
    · by_cases heq : addr = k
      · by_cases hv : v = 0#64
        · simp only [storeCell, if_neg hlt, if_pos heq, if_pos hv]
          exact cellsCanonical_mono h'.2 (by omega)
        · simp only [storeCell, if_neg hlt, if_pos heq, if_neg hv, cellsCanonical, Bool.and_eq_true, decide_eq_true_eq]
          exact ⟨⟨hle, hv⟩, heq ▸ h'.2⟩
      · simp only [storeCell, if_neg hlt, if_neg heq, cellsCanonical, Bool.and_eq_true, decide_eq_true_eq]
        exact ⟨h'.1, ih h'.2 (by omega)⟩

theorem storeCell_all {p : Nat → Bool} {addr : Nat} {l : List (Nat × Word)} (v : Word) (h : l.all (fun cell => p cell.1) = true)
    (ha : p addr = true) : (storeCell l addr v).all (fun cell => p cell.1) = true := by
  induction l with
  | nil => by_cases hv : v = 0#64 <;> simp [storeCell, hv, ha]
  | cons cell rest ih =>
    obtain ⟨k, w⟩ := cell
    have h' := h
    simp only [List.all_cons, Bool.and_eq_true] at h'
    by_cases hlt : addr < k
    · by_cases hv : v = 0#64
      · simpa [storeCell, hlt, hv] using h
      · simp only [storeCell, if_pos hlt, if_neg hv, List.all_cons, Bool.and_eq_true]
        exact ⟨ha, h'⟩
    · by_cases heq : addr = k
      · by_cases hv : v = 0#64
        · simpa only [storeCell, if_neg hlt, if_pos heq, if_pos hv] using h'.2
        · simp only [storeCell, if_neg hlt, if_pos heq, if_neg hv, List.all_cons, Bool.and_eq_true]
          exact ⟨ha, h'.2⟩
      · simp only [storeCell, if_neg hlt, if_neg heq, List.all_cons, Bool.and_eq_true]
        exact ⟨h'.1, ih h'.2⟩

/-- Two canonical lists that read alike everywhere are the same list. -/
theorem cells_ext {lo : Nat} {l l' : List (Nat × Word)} (h : cellsCanonical lo l = true) (h' : cellsCanonical lo l' = true)
    (heq : ∀ addr, lookupCell l addr = lookupCell l' addr) : l = l' := by
  induction l generalizing lo l' with
  | nil =>
    cases l' with
    | nil => rfl
    | cons cell' rest' =>
      simp only [cellsCanonical, Bool.and_eq_true, decide_eq_true_eq] at h'
      have := heq cell'.1
      simp [lookupCell] at this
      exact absurd this.symm h'.1.2
  | cons cell rest ih =>
    obtain ⟨k, w⟩ := cell
    simp only [cellsCanonical, Bool.and_eq_true, decide_eq_true_eq] at h
    cases l' with
    | nil =>
      have := heq k
      simp [lookupCell] at this
      exact absurd this h.1.2
    | cons cell' rest' =>
      obtain ⟨k', w'⟩ := cell'
      simp only [cellsCanonical, Bool.and_eq_true, decide_eq_true_eq] at h'
      have hk : k = k' := by
        rcases Nat.lt_trichotomy k k' with hlt | hk | hgt
        · have := heq k
          simp only [lookupCell, if_true, if_neg (show k' ≠ k by omega)] at this
          rw [lookupCell_below h'.2 (by omega)] at this
          exact absurd this h.1.2
        · exact hk
        · have := heq k'
          simp only [lookupCell, if_true, if_neg (show k ≠ k' by omega)] at this
          rw [lookupCell_below h.2 (by omega)] at this
          exact absurd this.symm h'.1.2
      subst hk
      have hw : w = w' := by simpa [lookupCell] using heq k
      subst hw
      congr 1
      refine ih h.2 h'.2 fun addr => ?_
      by_cases ha : k = addr
      · subst ha
        rw [lookupCell_below h.2 (by omega), lookupCell_below h'.2 (by omega)]
      · simpa [lookupCell, ha] using heq addr

/-! ### The store -/

@[simp] theorem Memory.read_zero (addr : Nat) : Memory.zero.read addr = 0#64 := rfl

@[simp] theorem Memory.zero_wf : Memory.zero.wf = true := rfl

@[simp] theorem Memory.zero_inRange (c : Config) : Memory.zero.inRange c = true := rfl

/-- A write is read back (20_memory.md R41). -/
theorem Memory.read_write_same {m : Memory} (h : m.wf = true) (addr : Nat) (v : Word) : (m.write addr v).read addr = v :=
  lookupCell_storeCell_same h addr v

/-- A write changes no other word (20_memory.md R41). -/
theorem Memory.read_write_ne (m : Memory) {addr addr' : Nat} (v : Word) (hne : addr' ≠ addr) :
    (m.write addr v).read addr' = m.read addr' :=
  lookupCell_storeCell_ne m.cells v hne

/-- What any word reads after a write. -/
theorem Memory.read_write {m : Memory} (h : m.wf = true) (addr addr' : Nat) (v : Word) :
    (m.write addr v).read addr' = if addr' = addr then v else m.read addr' := by
  by_cases heq : addr' = addr
  · rw [heq, if_pos rfl, Memory.read_write_same h]
  · rw [if_neg heq, Memory.read_write_ne m v heq]

/-- A write keeps the canonical form. -/
theorem Memory.write_wf {m : Memory} (h : m.wf = true) (addr : Nat) (v : Word) : (m.write addr v).wf = true :=
  storeCell_canonical h v (Nat.zero_le addr)

/-- A write inside the address space keeps the store inside it. -/
theorem Memory.write_inRange {c : Config} {m : Memory} {addr : Nat} (h : m.inRange c = true) (v : Word) (ha : addr < c.nwords) :
    (m.write addr v).inRange c = true :=
  storeCell_all (p := fun k => decide (k < c.nwords)) v h (by simpa using ha)

/-- Stores that read alike are equal data. -/
theorem Memory.ext_read {m m' : Memory} (h : m.wf = true) (h' : m'.wf = true) (heq : ∀ addr, m.read addr = m'.read addr) : m = m' := by
  cases m; cases m'
  simp only [Memory.mk.injEq]
  exact cells_ext h h' heq

/-- Beyond the address space a store in range reads zero. -/
theorem Memory.read_outOfRange {c : Config} {m : Memory} {addr : Nat} (h : m.inRange c = true) (ha : c.nwords ≤ addr) :
    m.read addr = 0#64 := by
  obtain ⟨l⟩ := m
  simp only [Memory.inRange, Memory.read] at h ⊢
  induction l with
  | nil => rfl
  | cons cell rest ih =>
    simp only [List.all_cons, Bool.and_eq_true, decide_eq_true_eq] at h
    have hne : cell.1 ≠ addr := by omega
    simp only [lookupCell, if_neg hne]
    exact ih h.2

end Sys2Proof.Machine
end

