-- ==== Sys2Proof/Laws/Slots.lean ====
section
/-! SUPPORT. The slot accessors keep the canonical form and the address range of the store: layout arithmetic first, then one lemma per
accessor and property. -/

namespace Sys2Proof.Machine

/-! ### Layout arithmetic (20_memory.md R43, R45) -/

theorem nslots_eq {c : Config} (hc : c.Legal) : c.nslots = 64 * c.nblocks := by
  have hd : 64 ∣ 2 ^ c.q := by
    have : (2 : Nat) ^ 6 ∣ 2 ^ c.q := pow_dvd_pow 2 hc.1
    simpa using this
  unfold Config.nslots Config.nblocks
  omega

theorem block_lt {c : Config} (hc : c.Legal) {s : Nat} (hs : s < c.nslots) : s / 64 < c.nblocks := by
  have := nslots_eq hc
  omega

/-- An address inside block j, at an offset below the block's size, is in the store. -/
theorem blockAddr_lt {c : Config} {j k : Nat} (hj : j < c.nblocks) (hk : k < c.bw) : j * c.bw + k < c.nwords := by
  unfold Config.nwords
  calc j * c.bw + k < j * c.bw + c.bw := by omega
    _ = (j + 1) * c.bw := by ring
    _ ≤ c.nblocks * c.bw := Nat.mul_le_mul_right _ hj

theorem occWord_lt {c : Config} (hc : c.Legal) {s : Nat} (hs : s < c.nslots) : occWord c (s / 64) < c.nwords :=
  blockAddr_lt (block_lt hc hs) (by simp [Config.bw])

theorem runWord_lt {c : Config} (hc : c.Legal) {s : Nat} (hs : s < c.nslots) : runWord c (s / 64) < c.nwords :=
  blockAddr_lt (block_lt hc hs) (by simp [Config.bw])

/-- The lane of in-block position b ends inside the remainder field: `b*r + r ≤ 64*r` (R44). -/
theorem lane_end_le (c : Config) (s : Nat) : s % 64 * c.r + c.r ≤ 64 * c.r := by
  have : (s % 64 + 1) * c.r ≤ 64 * c.r := Nat.mul_le_mul_right _ (by omega)
  calc s % 64 * c.r + c.r = (s % 64 + 1) * c.r := by ring
    _ ≤ 64 * c.r := this

theorem laneWord_lt {c : Config} (hc : c.Legal) (s : Nat) : laneWord c s < c.r := by
  have h1 := lane_end_le c s
  have h2 : 1 ≤ c.r := hc.2.1
  unfold laneWord
  omega

/-- A straddling lane's next word is still in the remainder field (R45). -/
theorem laneWord_succ_lt {c : Config} {s : Nat} (h : straddles c s = true) : laneWord c s + 1 < c.r := by
  have h1 := lane_end_le c s
  have h2 : laneShift c s + c.r > 64 := of_decide_eq_true h
  unfold laneShift at h2
  unfold laneWord
  omega

theorem laneAddr_lt {c : Config} (hc : c.Legal) {s : Nat} (hs : s < c.nslots) : laneAddr c s < c.nwords := by
  have h := blockAddr_lt (block_lt hc hs) (k := 3 + laneWord c s) (by have := laneWord_lt hc s; simp only [Config.bw]; omega)
  unfold laneAddr remWord
  omega

theorem laneAddr_succ_lt {c : Config} (hc : c.Legal) {s : Nat} (hs : s < c.nslots) (h : straddles c s = true) :
    laneAddr c s + 1 < c.nwords := by
  have h := blockAddr_lt (block_lt hc hs) (k := 4 + laneWord c s) (by have := laneWord_succ_lt h; simp only [Config.bw]; omega)
  unfold laneAddr remWord
  omega

/-! ### The canonical form is kept -/

section wf

variable {c : Config} {m : Memory}

theorem setOcc_wf (h : m.wf = true) (s : Nat) (v : Bool) : (setOcc c m s v).wf = true := Memory.write_wf h _ _

theorem setRun_wf (h : m.wf = true) (s : Nat) (v : Bool) : (setRun c m s v).wf = true := Memory.write_wf h _ _

theorem remWrite_wf (h : m.wf = true) (s : Nat) (v : Word) : (remWrite c m s v).wf = true := by
  simp only [remWrite]
  split
  · exact Memory.write_wf (Memory.write_wf h _ _) _ _
  · exact Memory.write_wf h _ _

theorem copySlot_wf (h : m.wf = true) (k : Nat) : (copySlot c m k).wf = true := setRun_wf (remWrite_wf h _ _) _ _

theorem shiftRight_wf (n k : Nat) (m : Memory) (h : m.wf = true) : (shiftRight c n k m).wf = true := by
  induction n generalizing k m with
  | zero => exact h
  | succ n ih => exact ih _ _ (copySlot_wf h _)

theorem insertEmptyHome_wf (h : m.wf = true) (h0 : Nat) (h1 : Word) : (insertEmptyHome c m h0 h1).wf = true :=
  setOcc_wf (setRun_wf (remWrite_wf h _ _) _ _) _ _

theorem insertAfter_wf (h : m.wf = true) (h0 : Nat) (h1 : Word) (e n : Nat) : (insertAfter c m h0 h1 e n).wf = true := by
  have h5 := remWrite_wf (c := c) (shiftRight_wf (c := c) (n - (e + 1)) n m h) (e + 1) h1
  simp only [insertAfter]
  refine setOcc_wf (setRun_wf ?_ _ _) _ _
  split
  · exact setRun_wf h5 _ _
  · exact h5

end wf

/-! ### The address range is kept -/

section range

variable {c : Config} {m : Memory}

theorem setOcc_inRange (hc : c.Legal) (h : m.inRange c = true) {s : Nat} (hs : s < c.nslots) (v : Bool) :
    (setOcc c m s v).inRange c = true :=
  Memory.write_inRange h _ (occWord_lt hc hs)

theorem setRun_inRange (hc : c.Legal) (h : m.inRange c = true) {s : Nat} (hs : s < c.nslots) (v : Bool) :
    (setRun c m s v).inRange c = true :=
  Memory.write_inRange h _ (runWord_lt hc hs)

theorem remWrite_inRange (hc : c.Legal) (h : m.inRange c = true) {s : Nat} (hs : s < c.nslots) (v : Word) :
    (remWrite c m s v).inRange c = true := by
  simp only [remWrite]
  split
  · exact Memory.write_inRange (Memory.write_inRange h _ (laneAddr_lt hc hs)) _ (laneAddr_succ_lt hc hs ‹_›)
  · exact Memory.write_inRange h _ (laneAddr_lt hc hs)

theorem copySlot_inRange (hc : c.Legal) (h : m.inRange c = true) {k : Nat} (hk : k < c.nslots) : (copySlot c m k).inRange c = true :=
  setRun_inRange hc (remWrite_inRange hc h hk _) hk _

theorem shiftRight_inRange (hc : c.Legal) (n k : Nat) (m : Memory) (h : m.inRange c = true) (hk : k < c.nslots) :
    (shiftRight c n k m).inRange c = true := by
  induction n generalizing k m with
  | zero => exact h
  | succ n ih => exact ih _ _ (copySlot_inRange hc h hk) (by omega)

theorem insertEmptyHome_inRange (hc : c.Legal) (h : m.inRange c = true) {h0 : Nat} (hs : h0 < c.nslots) (h1 : Word) :
    (insertEmptyHome c m h0 h1).inRange c = true :=
  setOcc_inRange hc (setRun_inRange hc (remWrite_inRange hc h hs _) hs _) hs _

theorem insertAfter_inRange (hc : c.Legal) (h : m.inRange c = true) {h0 e n : Nat} (hs : h0 < c.nslots) (he : e + 1 < c.nslots)
    (hn : n < c.nslots) (h1 : Word) : (insertAfter c m h0 h1 e n).inRange c = true := by
  have h5 := remWrite_inRange hc (shiftRight_inRange hc (n - (e + 1)) n m h hn) he h1
  simp only [insertAfter]
  refine setOcc_inRange hc (setRun_inRange hc ?_ he _) hs _
  split
  · exact setRun_inRange hc h5 (by omega) _
  · exact h5

end range

end Sys2Proof.Machine
end

