-- ==== Sys2Proof/Laws/Navigator.lean ====
section
/-! SUPPORT. What the navigator's shared questions can answer, said once: runEndAt, Fas, the hash split's range, INSERT and MAYCON on the
store, and the store-touching guard. -/

namespace Sys2Proof.Machine

/-- The popcount is the count of set bits, for the zero word too (00_scope.md R11). -/
theorem popcount_eq_countP (w : Word) : popcount w = (List.range 64).countP fun i => w.getLsbD i := by
  unfold popcount
  split
  · next h => subst h; simp
  · rfl

/-- Everything `runEndAt` can answer (42_run_navigator.md R114). -/
theorem runEndAt_cases (c : Config) (m : Memory) (s : Nat) :
    (gRank c m s = 0 ∧ runEndAt c m s = .ok none) ∨
    (gRank c m s ≠ 0 ∧ gSelect c m (gRank c m s) = c.nslots ∧ runEndAt c m s = .error .corrupt) ∨
    (gRank c m s ≠ 0 ∧ gSelect c m (gRank c m s) ≠ c.nslots ∧
      runEndAt c m s = .ok (some (gSelect c m (gRank c m s), gRank c m s))) := by
  unfold runEndAt
  by_cases ht : gRank c m s = 0
  · simp [ht]
  · by_cases he : gSelect c m (gRank c m s) = c.nslots <;> simp [ht, he]

/-- An error of `runEndAt` is CORRUPT (60_exceptions.md R154). -/
theorem runEndAt_error {c : Config} {m : Memory} {s : Nat} {st : Status} (h : runEndAt c m s = .error st) : st = .corrupt := by
  rcases runEndAt_cases c m s with ⟨_, h'⟩ | ⟨_, _, h'⟩ | ⟨_, _, h'⟩ <;> simp_all

/-- A slot the loop of `Fas` answers is in the universe and at or above the query (42_run_navigator.md R115). -/
theorem fasLoop_bounds {c : Config} {m : Memory} {fuel s n : Nat} (hs : s < c.nslots) (h : fasLoop c m fuel s = .ok n) :
    s ≤ n ∧ n < c.nslots := by
  induction fuel generalizing s with
  | zero => simp [fasLoop] at h
  | succ fuel ih =>
    unfold fasLoop at h
    split at h
    · simp at h
    · simp at h; omega
    · split at h
      · split at h
        · simp at h
        · have := ih (by omega) h; omega
      · simp at h; omega

/-- The error of the loop of `Fas` is CORRUPT or OVERFLOW. -/
theorem fasLoop_error {c : Config} {m : Memory} {fuel s : Nat} {st : Status} (h : fasLoop c m fuel s = .error st) :
    st = .corrupt ∨ st = .overflow := by
  induction fuel generalizing s with
  | zero => simp [fasLoop] at h; exact .inr h.symm
  | succ fuel ih =>
    unfold fasLoop at h
    split at h
    · next h' => simp at h; exact .inl (h ▸ runEndAt_error h')
    · simp at h
    · split at h
      · split at h
        · simp at h; exact .inr h.symm
        · exact ih h
      · simp at h

theorem fas_bounds {c : Config} {m : Memory} {s n : Nat} (hs : s < c.nslots) (h : fas c m s = .ok n) : s ≤ n ∧ n < c.nslots :=
  fasLoop_bounds hs h

theorem fas_error {c : Config} {m : Memory} {s : Nat} {st : Status} (h : fas c m s = .error st) : st = .corrupt ∨ st = .overflow :=
  fasLoop_error h

/-- When the query is covered up to e and `Fas` answers, the slot after e is in the universe (43_filter_ops.md R134). -/
theorem fas_covered {c : Config} {m : Memory} {s n e t : Nat} (hs : s < c.nslots) (hr : runEndAt c m s = .ok (some (e, t)))
    (hse : s ≤ e) (h : fas c m s = .ok n) : e + 1 ≤ n ∧ n < c.nslots := by
  obtain ⟨fuel, hf⟩ : ∃ fuel, c.nslots - s = fuel + 1 := ⟨c.nslots - s - 1, by omega⟩
  unfold fas at h
  rw [hf] at h
  simp only [fasLoop, hr, if_pos hse] at h
  split at h
  · simp at h
  · exact fasLoop_bounds (by omega) h

/-- Everything INSERT can do to the store (43_filter_ops.md R132). -/
theorem insertStore_cases {c : Config} {m : Memory} {h : Word} :
    (∃ st, (st = .corrupt ∨ st = .overflow) ∧ insertStore c m h = .error st) ∨
    (insertStore c m h = .ok (insertEmptyHome c m (hashHome c h).toNat (hashRem c h))) ∨
    (∃ e t n, runEndAt c m (hashHome c h).toNat = .ok (some (e, t)) ∧ (hashHome c h).toNat ≤ e ∧
      fas c m (hashHome c h).toNat = .ok n ∧ insertStore c m h = .ok (insertAfter c m (hashHome c h).toNat (hashRem c h) e n)) := by
  simp only [insertStore]
  split
  · next h' => exact .inl ⟨_, .inl (runEndAt_error h'), rfl⟩
  · exact .inr (.inl rfl)
  · next e t h' =>
    split
    · exact .inr (.inl rfl)
    · next hlt =>
      split
      · next hf => exact .inl ⟨_, fas_error hf, rfl⟩
      · next n hf => exact .inr (.inr ⟨e, t, n, h', by omega, hf, rfl⟩)

theorem insertStore_wf {c : Config} {m m' : Memory} {h : Word} (hm : m.wf = true) (hi : insertStore c m h = .ok m') : m'.wf = true := by
  rcases insertStore_cases (c := c) (m := m) (h := h) with ⟨st, _, he⟩ | he | ⟨e, t, n, _, _, _, he⟩ <;> rw [he] at hi
  · simp at hi
  · simp at hi; exact hi ▸ insertEmptyHome_wf hm _ _
  · simp at hi; exact hi ▸ insertAfter_wf hm _ _ _ _

/-- The quotient of every hash is a slot index (43_filter_ops.md R130). -/
theorem hashHome_lt {c : Config} (hc : c.Legal) (h : Word) : (hashHome c h).toNat < c.nslots := by
  have hp : c.p ≤ 64 := hc.2.2
  have hle : (h &&& c.qmask).toNat < 2 ^ c.p := by
    rw [BitVec.toNat_and]
    refine lt_of_le_of_lt Nat.and_le_right ?_
    unfold Config.qmask
    rw [BitVec.toNat_ofNat]
    refine lt_of_le_of_lt (Nat.mod_le _ _) (Nat.xor_lt_two_pow ?_ ?_)
    · have := Nat.two_pow_pos c.p; omega
    · have h1 := Nat.two_pow_pos c.r
      have h2 : 2 ^ c.r ≤ 2 ^ c.p := Nat.pow_le_pow_right (by decide) (by unfold Config.p; omega)
      omega
  unfold hashHome Config.nslots
  rw [BitVec.toNat_ushiftRight, Nat.shiftRight_eq_div_pow, Nat.div_lt_iff_lt_mul (Nat.two_pow_pos _), ← Nat.pow_add]
  exact hle

theorem insertStore_inRange {c : Config} {m m' : Memory} {h : Word} (hc : c.Legal) (hm : m.inRange c = true)
    (hi : insertStore c m h = .ok m') : m'.inRange c = true := by
  have hs := hashHome_lt hc h
  rcases insertStore_cases (c := c) (m := m) (h := h) with ⟨st, _, he⟩ | he | ⟨e, t, n, hr, hle, hf, he⟩ <;> rw [he] at hi
  · simp at hi
  · simp at hi; exact hi ▸ insertEmptyHome_inRange hc hm hs _
  · have hb := fas_covered hs hr hle hf
    simp at hi; exact hi ▸ insertAfter_inRange hc hm hs (by omega) hb.2 _

/-- Everything MAYCON can answer from the store (43_filter_ops.md R137). -/
theorem mayContain_error {c : Config} {m : Memory} {h : Word} {st : Status} (he : mayContain c m h = .error st) : st = .corrupt := by
  simp only [mayContain] at he
  split at he
  · split at he
    · next h' => simp at he; exact he ▸ runEndAt_error h'
    · simp at he
    · simp at he
  · simp at he

/-! ### The guard of the commands that touch the store (60_exceptions.md R153) -/

theorem State.withStore_init {s : State} (h : s.init = true) (k : Memory → State) : s.withStore k = k s.mem := by
  simp [State.withStore, h]

theorem State.withStore_uninit {s : State} (h : s.init = false) (k : Memory → State) : s.withStore k = s.raise .uninit := by
  simp [State.withStore, h]

/-! ### CLEAR as the loop of the spec (43_filter_ops.md R139) -/

/-- The loop `for addr = 0 to n - 1: MemWrite(addr, 1, 0)`. -/
def clearLoop : Nat → Memory → Memory
  | 0, m => m
  | n + 1, m => (clearLoop n m).write n 0#64

theorem clearLoop_wf (n : Nat) {m : Memory} (h : m.wf = true) : (clearLoop n m).wf = true := by
  induction n with
  | zero => exact h
  | succ n ih => exact Memory.write_wf ih _ _

theorem read_clearLoop (n : Nat) {m : Memory} (h : m.wf = true) (addr : Nat) :
    (clearLoop n m).read addr = if addr < n then 0#64 else m.read addr := by
  induction n with
  | zero => simp [clearLoop]
  | succ n ih =>
    rw [clearLoop, Memory.read_write (clearLoop_wf n h), ih]
    by_cases heq : addr = n
    · simp [heq]
    · have : addr < n + 1 ↔ addr < n := by omega
      simp [heq, this]

/-- Zeroing every word of the store, one write a word, leaves the store CLEAR leaves. -/
theorem clearLoop_eq_zero {c : Config} {m : Memory} (h : m.wf = true) (hr : m.inRange c = true) : clearLoop c.nwords m = Memory.zero := by
  refine Memory.ext_read (clearLoop_wf _ h) Memory.zero_wf fun addr => ?_
  rw [read_clearLoop _ h]
  split
  · rfl
  · rw [Memory.read_outOfRange hr (by omega)]; rfl

end Sys2Proof.Machine
end

