-- ==== Sys2Proof/Laws/PerInstr.lean ====
section
/-! SUPPORT. One statement about every command as syntax, one lemma per constructor: the fields of its command word (30_encoding.md R61,
R62, R66). -/

namespace Sys2Proof.Laws.EncodedFields

/-- The three fields of the command's word are its opcode and its two operands. -/
def Statement (i : Instr) : Prop :=
  Command.op (encode i) = i.opcode ∧ Command.a (encode i) = i.operandA ∧ Command.b (encode i) = i.operandB

/-- The fields of a packed word are what was packed. -/
theorem pack_fields (op : BitVec 8) (a b : Word) :
    Command.op (Command.pack op a b) = op ∧ Command.a (Command.pack op a b) = a ∧ Command.b (Command.pack op a b) = b := by
  refine ⟨?_, ?_, ?_⟩ <;> ext i hi <;>
    simp only [Command.op, Command.a, Command.b, Command.pack, BitVec.getElem_extractLsb', BitVec.getLsbD_append] 
  · rw [if_neg (by omega), if_neg (by omega)]
    simp only [show 128 + i - 64 - 64 = i by omega]
    exact BitVec.getLsbD_eq_getElem hi
  · rw [if_pos (by omega)]
    simp only [Nat.zero_add]
    exact BitVec.getLsbD_eq_getElem hi
  · rw [if_neg (by omega), if_pos (by omega)]
    simp only [show 64 + i - 64 = i by omega]
    exact BitVec.getLsbD_eq_getElem hi

theorem rank64 (a b : Word) : Statement (.rank64 a b) := pack_fields _ _ _
theorem select64 (a b : Word) : Statement (.select64 a b) := pack_fields _ _ _
theorem ldw (a : Word) : Statement (.ldw a) := pack_fields _ _ _
theorem stw (a b : Word) : Statement (.stw a b) := pack_fields _ _ _
theorem remrd (a : Word) : Statement (.remrd a) := pack_fields _ _ _
theorem remwr (a b : Word) : Statement (.remwr a b) := pack_fields _ _ _
theorem grank (a : Word) : Statement (.grank a) := pack_fields _ _ _
theorem gsel (a : Word) : Statement (.gsel a) := pack_fields _ _ _
theorem runend (a : Word) : Statement (.runend a) := pack_fields _ _ _
theorem fas (a : Word) : Statement (.fas a) := pack_fields _ _ _
theorem homecov (a : Word) : Statement (.homecov a) := pack_fields _ _ _
theorem split (a : Word) : Statement (.split a) := pack_fields _ _ _
theorem insert (a : Word) : Statement (.insert a) := pack_fields _ _ _
theorem maycon (a : Word) : Statement (.maycon a) := pack_fields _ _ _
theorem clear : Statement .clear := pack_fields _ _ _
theorem rdcsr (a : Word) : Statement (.rdcsr a) := pack_fields _ _ _

end Sys2Proof.Laws.EncodedFields
end

