-- ==== Sys2Proof/Laws/State.lean ====
section
/-! SUPPORT. One lemma per field per update of the state, so that no later proof unfolds a record update. -/

namespace Sys2Proof.Machine

section updates

variable (s : State)

/-! ### `State.respond` -/

@[simp] theorem State.respond_cfg (st : Status) (x y : Word) : (s.respond st x y).cfg = s.cfg := rfl
@[simp] theorem State.respond_mem (st : Status) (x y : Word) : (s.respond st x y).mem = s.mem := rfl
@[simp] theorem State.respond_init (st : Status) (x y : Word) : (s.respond st x y).init = s.init := rfl
@[simp] theorem State.respond_fault (st : Status) (x y : Word) : (s.respond st x y).fault = faultAfter s.fault st := rfl
@[simp] theorem State.respond_busy (st : Status) (x y : Word) : (s.respond st x y).busy = false := rfl
@[simp] theorem State.respond_st (st : Status) (x y : Word) : (s.respond st x y).st = st := rfl
@[simp] theorem State.respond_d0 (st : Status) (x y : Word) : (s.respond st x y).d0 = x := rfl
@[simp] theorem State.respond_d1 (st : Status) (x y : Word) : (s.respond st x y).d1 = y := rfl
@[simp] theorem State.respond_rspValid (st : Status) (x y : Word) : (s.respond st x y).rspValid = true := rfl
@[simp] theorem State.respond_op (st : Status) (x y : Word) : (s.respond st x y).op = s.op := rfl
@[simp] theorem State.respond_a (st : Status) (x y : Word) : (s.respond st x y).a = s.a := rfl
@[simp] theorem State.respond_b (st : Status) (x y : Word) : (s.respond st x y).b = s.b := rfl
@[simp] theorem State.respond_inputs (st : Status) (x y : Word) : (s.respond st x y).inputs = s.inputs := rfl

/-! ### `State.finish` -/

@[simp] theorem State.finish_cfg (x y : Word) : (s.finish x y).cfg = s.cfg := rfl
@[simp] theorem State.finish_mem (x y : Word) : (s.finish x y).mem = s.mem := rfl
@[simp] theorem State.finish_init (x y : Word) : (s.finish x y).init = s.init := rfl
@[simp] theorem State.finish_fault (x y : Word) : (s.finish x y).fault = faultAfter s.fault .ok := rfl
@[simp] theorem State.finish_busy (x y : Word) : (s.finish x y).busy = false := rfl
@[simp] theorem State.finish_st (x y : Word) : (s.finish x y).st = .ok := rfl
@[simp] theorem State.finish_d0 (x y : Word) : (s.finish x y).d0 = x := rfl
@[simp] theorem State.finish_d1 (x y : Word) : (s.finish x y).d1 = y := rfl
@[simp] theorem State.finish_rspValid (x y : Word) : (s.finish x y).rspValid = true := rfl
@[simp] theorem State.finish_op (x y : Word) : (s.finish x y).op = s.op := rfl
@[simp] theorem State.finish_a (x y : Word) : (s.finish x y).a = s.a := rfl
@[simp] theorem State.finish_b (x y : Word) : (s.finish x y).b = s.b := rfl
@[simp] theorem State.finish_inputs (x y : Word) : (s.finish x y).inputs = s.inputs := rfl

/-! ### `State.raise` -/

@[simp] theorem State.raise_cfg (st : Status) : (s.raise st).cfg = s.cfg := rfl
@[simp] theorem State.raise_mem (st : Status) : (s.raise st).mem = s.mem := rfl
@[simp] theorem State.raise_init (st : Status) : (s.raise st).init = s.init := rfl
@[simp] theorem State.raise_fault (st : Status) : (s.raise st).fault = faultAfter s.fault st := rfl
@[simp] theorem State.raise_busy (st : Status) : (s.raise st).busy = false := rfl
@[simp] theorem State.raise_st (st : Status) : (s.raise st).st = st := rfl
@[simp] theorem State.raise_d0 (st : Status) : (s.raise st).d0 = 0#64 := rfl
@[simp] theorem State.raise_d1 (st : Status) : (s.raise st).d1 = 0#64 := rfl
@[simp] theorem State.raise_rspValid (st : Status) : (s.raise st).rspValid = true := rfl
@[simp] theorem State.raise_op (st : Status) : (s.raise st).op = s.op := rfl
@[simp] theorem State.raise_a (st : Status) : (s.raise st).a = s.a := rfl
@[simp] theorem State.raise_b (st : Status) : (s.raise st).b = s.b := rfl
@[simp] theorem State.raise_inputs (st : Status) : (s.raise st).inputs = s.inputs := rfl

/-! ### `State.accept` -/

@[simp] theorem State.accept_cfg (w : Command) : (s.accept w).cfg = s.cfg := rfl
@[simp] theorem State.accept_mem (w : Command) : (s.accept w).mem = s.mem := rfl
@[simp] theorem State.accept_init (w : Command) : (s.accept w).init = s.init := rfl
@[simp] theorem State.accept_fault (w : Command) : (s.accept w).fault = s.fault := rfl
@[simp] theorem State.accept_busy (w : Command) : (s.accept w).busy = true := rfl
@[simp] theorem State.accept_st (w : Command) : (s.accept w).st = s.st := rfl
@[simp] theorem State.accept_d0 (w : Command) : (s.accept w).d0 = s.d0 := rfl
@[simp] theorem State.accept_d1 (w : Command) : (s.accept w).d1 = s.d1 := rfl
@[simp] theorem State.accept_rspValid (w : Command) : (s.accept w).rspValid = s.rspValid := rfl
@[simp] theorem State.accept_op (w : Command) : (s.accept w).op = Command.op w := rfl
@[simp] theorem State.accept_a (w : Command) : (s.accept w).a = Command.a w := rfl
@[simp] theorem State.accept_b (w : Command) : (s.accept w).b = Command.b w := rfl
@[simp] theorem State.accept_inputs (w : Command) : (s.accept w).inputs = s.inputs := rfl

/-! ### `State.deliver` -/

@[simp] theorem State.deliver_cfg : (s.deliver).cfg = s.cfg := rfl
@[simp] theorem State.deliver_mem : (s.deliver).mem = s.mem := rfl
@[simp] theorem State.deliver_init : (s.deliver).init = s.init := rfl
@[simp] theorem State.deliver_fault : (s.deliver).fault = s.fault := rfl
@[simp] theorem State.deliver_busy : (s.deliver).busy = s.busy := rfl
@[simp] theorem State.deliver_st : (s.deliver).st = s.st := rfl
@[simp] theorem State.deliver_d0 : (s.deliver).d0 = s.d0 := rfl
@[simp] theorem State.deliver_d1 : (s.deliver).d1 = s.d1 := rfl
@[simp] theorem State.deliver_rspValid : (s.deliver).rspValid = false := rfl
@[simp] theorem State.deliver_op : (s.deliver).op = s.op := rfl
@[simp] theorem State.deliver_a : (s.deliver).a = s.a := rfl
@[simp] theorem State.deliver_b : (s.deliver).b = s.b := rfl
@[simp] theorem State.deliver_inputs : (s.deliver).inputs = s.inputs := rfl

/-! ### `State.consumeInput` -/

@[simp] theorem State.consumeInput_cfg : (s.consumeInput).cfg = s.cfg := rfl
@[simp] theorem State.consumeInput_mem : (s.consumeInput).mem = s.mem := rfl
@[simp] theorem State.consumeInput_init : (s.consumeInput).init = s.init := rfl
@[simp] theorem State.consumeInput_fault : (s.consumeInput).fault = s.fault := rfl
@[simp] theorem State.consumeInput_busy : (s.consumeInput).busy = s.busy := rfl
@[simp] theorem State.consumeInput_st : (s.consumeInput).st = s.st := rfl
@[simp] theorem State.consumeInput_d0 : (s.consumeInput).d0 = s.d0 := rfl
@[simp] theorem State.consumeInput_d1 : (s.consumeInput).d1 = s.d1 := rfl
@[simp] theorem State.consumeInput_rspValid : (s.consumeInput).rspValid = s.rspValid := rfl
@[simp] theorem State.consumeInput_op : (s.consumeInput).op = s.op := rfl
@[simp] theorem State.consumeInput_a : (s.consumeInput).a = s.a := rfl
@[simp] theorem State.consumeInput_b : (s.consumeInput).b = s.b := rfl
@[simp] theorem State.consumeInput_inputs : (s.consumeInput).inputs = s.inputs.tail := rfl

/-! ### `State.resetNow` -/

@[simp] theorem State.resetNow_cfg : (s.resetNow).cfg = s.cfg := rfl
@[simp] theorem State.resetNow_mem : (s.resetNow).mem = Memory.zero := rfl
@[simp] theorem State.resetNow_init : (s.resetNow).init = false := rfl
@[simp] theorem State.resetNow_fault : (s.resetNow).fault = false := rfl
@[simp] theorem State.resetNow_busy : (s.resetNow).busy = false := rfl
@[simp] theorem State.resetNow_st : (s.resetNow).st = .ok := rfl
@[simp] theorem State.resetNow_d0 : (s.resetNow).d0 = 0#64 := rfl
@[simp] theorem State.resetNow_d1 : (s.resetNow).d1 = 0#64 := rfl
@[simp] theorem State.resetNow_rspValid : (s.resetNow).rspValid = false := rfl
@[simp] theorem State.resetNow_op : (s.resetNow).op = 0#8 := rfl
@[simp] theorem State.resetNow_a : (s.resetNow).a = 0#64 := rfl
@[simp] theorem State.resetNow_b : (s.resetNow).b = 0#64 := rfl
@[simp] theorem State.resetNow_inputs : (s.resetNow).inputs = s.inputs := rfl

/-! ### `State.withLatched` -/

@[simp] theorem State.withLatched_cfg (w : Command) : (s.withLatched w).cfg = s.cfg := rfl
@[simp] theorem State.withLatched_mem (w : Command) : (s.withLatched w).mem = s.mem := rfl
@[simp] theorem State.withLatched_init (w : Command) : (s.withLatched w).init = s.init := rfl
@[simp] theorem State.withLatched_fault (w : Command) : (s.withLatched w).fault = s.fault := rfl
@[simp] theorem State.withLatched_busy (w : Command) : (s.withLatched w).busy = true := rfl
@[simp] theorem State.withLatched_st (w : Command) : (s.withLatched w).st = s.st := rfl
@[simp] theorem State.withLatched_d0 (w : Command) : (s.withLatched w).d0 = s.d0 := rfl
@[simp] theorem State.withLatched_d1 (w : Command) : (s.withLatched w).d1 = s.d1 := rfl
@[simp] theorem State.withLatched_rspValid (w : Command) : (s.withLatched w).rspValid = false := rfl
@[simp] theorem State.withLatched_op (w : Command) : (s.withLatched w).op = Command.op w := rfl
@[simp] theorem State.withLatched_a (w : Command) : (s.withLatched w).a = Command.a w := rfl
@[simp] theorem State.withLatched_b (w : Command) : (s.withLatched w).b = Command.b w := rfl

/-! ### The updates of the store that the meanings make -/

@[simp] theorem State.finish_withMem (m : Memory) (x y : Word) :
    (State.finish { s with mem := m } x y).mem = m := rfl

@[simp] theorem State.pins_withInputs (p : Pins) (ps : List Pins) : State.pins { s with inputs := p :: ps } = p := rfl

@[simp] theorem State.latched_accept (w : Command) :
    (s.accept w).latched = Command.pack (Command.op w) (Command.a w) (Command.b w) := rfl

end updates

@[simp] theorem faultAfter_ok (f : Bool) : faultAfter f .ok = f := by simp [faultAfter, Status.setsFault]

@[simp] theorem faultAfter_true (st : Status) : faultAfter true st = true := by simp [faultAfter]

end Sys2Proof.Machine
end

