-- ==== Sys2Proof/Laws/Step.lean ====
section
/-! SUPPORT. What one step can do, said once (30_encoding.md R60, 70_reset_and_hazards.md R170, R176). -/

namespace Sys2Proof.Machine

/-- Every case of a step on one sample of the pins. -/
theorem stepWith_cases (p : Pins) (s : State) :
    (p.rst = true ∧ stepWith p s = .next s.resetNow) ∨
    (p.rst = false ∧ s.busy = true ∧ stepWith p s = execLatched s) ∨
    (p.rst = false ∧ s.busy = false ∧ s.rspValid = true ∧ stepWith p s = .next (if p.rspReady then s.deliver else s)) ∨
    (p.rst = false ∧ s.busy = false ∧ s.rspValid = false ∧ stepWith p s = .next (if p.cmdValid then s.accept p.cmd else s)) := by
  unfold stepWith
  rcases Bool.eq_false_or_eq_true p.rst with hr | hr <;> rcases Bool.eq_false_or_eq_true s.busy with hb | hb <;>
    rcases Bool.eq_false_or_eq_true s.rspValid with hv | hv <;> simp [hr, hb, hv]

/-- A latched word that decodes is executed. -/
theorem execLatched_ok {s : State} {i : Instr} (h : decode s.latched = .ok i) : execLatched s = exec i s := by
  simp [execLatched, h]

/-- A latched word that does not decode ends with ILLEGAL (60_exceptions.md R151). -/
theorem execLatched_illegal {s : State} {e : DecodeError} (h : decode s.latched = .error e) : execLatched s = .next (s.raise .illegal) := by
  simp [execLatched, h]

/-- The pins when samples are waiting. -/
theorem State.pins_cons {s : State} {p : Pins} {ps : List Pins} (h : s.inputs = p :: ps) : s.pins = p := by
  simp [State.pins, h]

/-- The pins when no sample is waiting. -/
theorem State.pins_nil {s : State} (h : s.inputs = []) : s.pins = Pins.quiet := by
  simp [State.pins, h]

end Sys2Proof.Machine
end

