-- ==== Sys2Proof/Machine/TextForm.lean ====
section
/-! DEFINITION. The text forms of commands, command words and responses (30_encoding.md R61, R63, R69). No step reads them. -/

namespace Sys2Proof.Machine

/-- The hexadecimal digit of a number below 16, in capitals. -/
def hexDigit (n : Nat) : Char := Char.ofNat (if n < 10 then 48 + n else 55 + n)

/-- The `k` low hexadecimal digits of a number, most significant first. -/
def hexDigits : Nat → Nat → List Char
  | 0, _ => []
  | k + 1, n => hexDigits k (n / 16) ++ [hexDigit (n % 16)]

/-- A number as `k` hexadecimal digits. -/
def hexText (k n : Nat) : String := String.ofList (hexDigits k n)

/-- The command line: the mnemonic and the operands of its format, in decimal (R69). -/
def instrText (i : Instr) : String :=
  match i.format with
  | .f0 => i.mnemonic
  | .f1 => i.mnemonic ++ " " ++ toString i.operandA.toNat
  | .f2 => i.mnemonic ++ " " ++ toString i.operandA.toNat ++ ", " ++ toString i.operandB.toNat

/-- The command word as `op:a:b` (R61). -/
def commandText (w : Command) : String :=
  hexText 2 (Command.op w).toNat ++ ":" ++ hexText 16 (Command.a w).toNat ++ ":" ++ hexText 16 (Command.b w).toNat

/-- The command word as one 34-digit hexadecimal number, op then b then a (R61). -/
def commandNumeral (w : Command) : String :=
  "0x" ++ hexText 2 (Command.op w).toNat ++ "_" ++ hexText 16 (Command.b w).toNat ++ "_" ++ hexText 16 (Command.a w).toNat

/-- The name of a status (R150). -/
def statusText : Status → String
  | .ok => "OK"
  | .overflow => "OVERFLOW"
  | .illegal => "ILLEGAL"
  | .badArg => "BADARG"
  | .uninit => "UNINIT"
  | .corrupt => "CORRUPT"

/-- The response as `status:d0:d1` (R63). -/
def responseText (s : State) : String :=
  statusText s.st ++ ":" ++ hexText 16 s.d0.toNat ++ ":" ++ hexText 16 s.d1.toNat

end Sys2Proof.Machine
end

