-- ==== Sys2Proof/Machine/Assembler.lean ====
section
/-! DEFINITION. Reading the line form of programs (30_encoding.md R69, R70) and running a program of lines. The unit itself receives
command words: no step reads these. -/

namespace Sys2Proof.Machine

/-- The value of a digit in a base up to 16; `none` for any other character. -/
def digitValue (base : Nat) (ch : Char) : Option Nat :=
  let n := ch.toNat
  let v := if n < 58 then n - 48 else if n < 71 then n - 55 else n - 87
  if (48 ≤ n ∧ n < 58 ∨ 65 ≤ n ∧ n < 71 ∨ 97 ≤ n ∧ n < 103) ∧ v < base then some v else none

/-- The number with these digits read onto `acc`; an underscore is only a digit separator (00_scope.md R9). -/
def readDigits (base : Nat) : Nat → List Char → Option Nat
  | acc, [] => some acc
  | acc, ch :: rest =>
    if ch = '_' then readDigits base acc rest
    else match digitValue base ch with
      | none => none
      | some v => readDigits base (acc * base + v) rest

/-- The number with these digits. A word with no digit in it, empty or of underscores alone, is no number (DESIGN CHOICE, log 20: the
spec says of an underscore only that it separates digits). -/
def readDigitWord (base : Nat) (digits : List Char) : Option Nat :=
  if digits.all (fun ch => decide (ch = '_')) then none else readDigits base 0 digits

/-- A decimal or `0x` hexadecimal number (R69), of any size; `none` where there is no digit (log 20). -/
def readNumber : List Char → Option Nat
  | '0' :: 'x' :: digits => readDigitWord 16 digits
  | digits => readDigitWord 10 digits

/-- A number that fits a data word. One of 2^64 or more is no data word (DESIGN CHOICE, log 20: the spec gives it no meaning). -/
def readDataWord (digits : List Char) : Option Word :=
  (readNumber digits).bind fun n => if n < 2 ^ 64 then some (BitVec.ofNat 64 n) else none

/-- The words of a line, up to its comment; a comma is a word of its own. `cur` holds the word being read, last character first. -/
def lineWords : List Char → List Char → List (List Char)
  | cur, [] => if cur = [] then [] else [cur.reverse]
  | cur, ch :: rest =>
    if ch = ';' then (if cur = [] then [] else [cur.reverse])
    else if ch = ' ' ∨ ch = '\t' then (if cur = [] then lineWords [] rest else cur.reverse :: lineWords [] rest)
    else if ch = ',' then (if cur = [] then [','] :: lineWords [] rest else cur.reverse :: [','] :: lineWords [] rest)
    else lineWords (ch :: cur) rest

/-- The numbers of an operand field: none, one, or two with a comma between. -/
def readOperands : List (List Char) → Option (List Nat)
  | [] => some []
  | [x] => (readNumber x).map fun a => [a]
  | [x, [','], y] => (readNumber x).bind fun a => (readNumber y).map fun b => [a, b]
  | _ => none

/-- The command of the opcode table with this mnemonic and these operands, as many as its format reads (R62, R66). -/
def readInstr (mnemonic : List Char) (operands : List Nat) : Option Instr :=
  match opcodeTable.find? fun row => decide (row.mnemonic.toList = mnemonic) with
  | none => none
  | some row =>
    let fields := operands ++ [0, 0]
    let a := fields.getD 0 0
    let b := fields.getD 1 0
    match decodeFields (Command.op row.pattern) (BitVec.ofNat 64 a) (BitVec.ofNat 64 b) with
    | .error _ => none
    | .ok i =>
      let reads := match i.format with
        | .f0 => 0
        | .f1 => 1
        | .f2 => 2
      if operands.length = reads ∧ a < 2 ^ 64 ∧ b < 2 ^ 64 then some i else none

/-- The pseudo-command with this name and these operands, whose two parts fit the instance (R70). -/
def readPseudo (c : Config) (name : List Char) (operands : List Nat) : Option Pseudo :=
  match operands with
  | [] => if name = "NEW".toList then some .new else none
  | [h0, h1] =>
    if h0 < 2 ^ c.q ∧ h1 < 2 ^ c.r then
      (if name = "INSERT.QR".toList then some (.insertQR h0 h1)
       else if name = "MAYCON.QR".toList then some (.mayconQR h0 h1) else none)
    else none
  | _ => none

/-- The command a mnemonic and its operands stand for, a pseudo-command expanded. -/
def readCommand (c : Config) : List (List Char) → Option Instr
  | [] => none
  | name :: rest =>
    match readOperands rest with
    | none => none
    | some operands =>
      match readPseudo c name operands with
      | some p => some (Pseudo.expand c p)
      | none => readInstr name operands

/-- The status with this name (60_exceptions.md R150). -/
def readStatus (name : List Char) : Option Status :=
  [Status.ok, .overflow, .illegal, .badArg, .uninit, .corrupt].find? fun st => decide ((statusText st).toList = name)

/-- The expected response, `status d0 d1`; a data word that is left out is zero (R69). `none` for a data word of 2^64 or more
(DESIGN CHOICE, log 20), so that no such line matches a response. -/
def readExpected : List (List Char) → Option (Status × Word × Word)
  | [] => none
  | st :: rest =>
    match readStatus st, rest.mapM readDataWord with
    | some st, some [] => some (st, 0#64, 0#64)
    | some st, some [x] => some (st, x, 0#64)
    | some st, some [x, y] => some (st, x, y)
    | _, _ => none

/-- One line of a program: a command, and the response the line expects of it, if it says one (R69). -/
structure ProgramLine where
  command : Instr
  expected : Option (Status × Word × Word)
  deriving DecidableEq, Repr

/-- A line with a command; `none` for a line that is not of the form of R69, a comment alone among them. -/
def readLine (c : Config) (line : String) : Option ProgramLine :=
  let ws := lineWords [] line.toList
  let arrow := "->".toList
  match readCommand c (ws.takeWhile fun w => decide (w ≠ arrow)), ws.dropWhile fun w => decide (w ≠ arrow) with
  | some i, [] => some { command := i, expected := none }
  | some i, _ :: rest => (readExpected rest).map fun e => { command := i, expected := some e }
  | none, _ => none

/-- The state after the lines of a program, executed top to bottom (R69); `none` as soon as a response is not the expected one. -/
def runLines : State → List ProgramLine → Option State
  | s, [] => some s
  | s, line :: rest =>
    match exec line.command s with
    | .next t => if line.expected.getD (t.st, t.d0, t.d1) = (t.st, t.d0, t.d1) then runLines t rest else none
    | .fault _ => none
    | .refused _ => none

end Sys2Proof.Machine
end

