-- ==== Sys2Proof/Tests/Slice0.lean ====
section
/-! SUPPORT. The model's own tests: command words written out from 30_encoding.md R61, well-formedness, steps whose expected responses are
in spec/95_test_vectors.md (the section is named at each), and for every statement with hypotheses a state and operands that meet them. -/

namespace Sys2Proof.Tests

open Sys2Proof.Machine

/-! ### Helpers -/

/-- The next state of an outcome; the reset state where there is none. -/
def nextOf : Host.Outcome State Fault Refusal → State
  | .next t => t
  | .fault _ => State.reset
  | .refused _ => State.reset

/-- Status, D0 and D1 of an outcome's next state. -/
def response : Host.Outcome State Fault Refusal → Option (Status × Word × Word)
  | .next t => some (t.st, t.d0, t.d1)
  | .fault _ => none
  | .refused _ => none

/-- The state after these commands, executed one after the other. -/
def after : State → List Instr → State
  | s, [] => s
  | s, i :: is => after (nextOf (exec i s)) is

/-- The small instance after CLEAR. -/
def small : State := after (State.resetOf Config.small) [.clear]

/-- The default instance after CLEAR. -/
def big : State := after State.reset [.clear]

/-- The small instance with a BUSY unit: LDW 0 is in the latches. -/
def smallBusy : State := (State.resetOf Config.small).withFetchWord 136 (3 * 2 ^ 128)

/-- The small instance with runs of home 2, [2, 3], and home 3, [4, 4] (section 3.2). -/
def cluster : State := after small [.insert 0x4A#64, .insert 0x4B#64, .insert 0x6C#64]

/-- The small instance with home 0 and no run-end. -/
def broken : State := after small [.stw 1#64 1#64]

/-- The small instance with a one-slot run at the last slot. -/
def topFull : State := after small [.stw 1#64 0x8000000000000000#64, .stw 2#64 0x8000000000000000#64]

/-- The pins with a command presented. -/
def present (w : Command) : Pins := { rst := false, cmdValid := true, cmd := w, rspReady := false }

/-- The pins with `rst` high. -/
def resetPins : Pins := { rst := true, cmdValid := false, cmd := 0#136, rspReady := false }

/-- The pins with the host ready to take a response. -/
def takePins : Pins := { rst := false, cmdValid := false, cmd := 0#136, rspReady := true }

/-! ### Decoding: words written out from R61 (op, then b, then a) -/

theorem test_decode_rank64 : decode 0x01000000000000003F00000000000000EE#136 = .ok (.rank64 0xEE#64 0x3F#64) := by decide
theorem test_decode_select64 : decode 0x0200000000000000028800000000000000#136 = .ok (.select64 0x8800000000000000#64 2#64) := by decide
theorem test_decode_ldw : decode 0x0300000000000000000000000000005FFF#136 = .ok (.ldw 0x5FFF#64) := by decide
theorem test_decode_stw : decode 0x0400000000DEADBEEF0000000000000007#136 = .ok (.stw 7#64 0xDEADBEEF#64) := by decide
theorem test_decode_remrd : decode 0x050000000000000000000000000000001F#136 = .ok (.remrd 0x1F#64) := by decide
theorem test_decode_remwr : decode 0x0600000000000001FF0000000000000007#136 = .ok (.remwr 7#64 0x1FF#64) := by decide
theorem test_decode_grank : decode 0x070000000000000000000000000001FFFF#136 = .ok (.grank 0x1FFFF#64) := by decide
theorem test_decode_gsel : decode 0x080000000000000000FFFFFFFFFFFFFFFF#136 = .ok (.gsel 0xFFFFFFFFFFFFFFFF#64) := by decide
theorem test_decode_runend : decode 0x090000000000000000000000000000003C#136 = .ok (.runend 0x3C#64) := by decide
theorem test_decode_fas : decode 0x0A00000000000000000000000000000080#136 = .ok (.fas 0x80#64) := by decide
theorem test_decode_homecov : decode 0x0B0000000000000000000000000000003D#136 = .ok (.homecov 0x3D#64) := by decide
theorem test_decode_split : decode 0x0C0000000000000000CBF29CE484222325#136 = .ok (.split 0xCBF29CE484222325#64) := by decide
theorem test_decode_insert : decode 0x0D00000000000000000000000000003FF0#136 = .ok (.insert 0x3FF0#64) := by decide
theorem test_decode_maycon : decode 0x0E00000000000000000000000000003FF0#136 = .ok (.maycon 0x3FF0#64) := by decide
theorem test_decode_clear : decode 0x0F00000000000004560000000000000123#136 = .ok .clear := by decide
theorem test_decode_rdcsr : decode 0x1000000000000000000000000000000008#136 = .ok (.rdcsr 8#64) := by decide
/-- Section 2.8: opcodes 0x00, 0x11, 0xFF. -/
theorem test_decode_illegal :
    decode 0#136 = .error (.illegalOpcode 0x00#8) ∧
    decode 0x1100000000000000020000000000000001#136 = .error (.illegalOpcode 0x11#8) ∧
    decode 0xFFFFFFFFFFFFFFFFFFFFFFFFFFFFFFFFFF#136 = .error (.illegalOpcode 0xFF#8) := by decide
theorem test_encode_stw : encode (.stw 7#64 0xDEADBEEF#64) = 0x0400000000DEADBEEF0000000000000007#136 := by decide
theorem test_opcode_rows_disjoint :
    opcodeTable.Pairwise fun x y => x.pattern &&& y.mask ≠ y.pattern ∧ y.pattern &&& x.mask ≠ x.pattern := by decide
/-- The fetch word of a table row, op in bits 135:128. -/
theorem test_decode_table_word : decodeTableWord 136 (0x0A * 2 ^ 128 + 5) = some (.fas 5#64) ∧ decodeTableWord 136 5 = none := by decide
/-- R61's example in its two spellings, and R63's. -/
theorem test_text : commandNumeral 0x01000000000000003F00000000000000EE#136 = "0x01_000000000000003F_00000000000000EE" ∧
    commandText 0x01000000000000003F00000000000000EE#136 = "01:00000000000000EE:000000000000003F" ∧
    responseText (nextOf (exec (.rank64 0xEE#64 63#64) State.reset)) = "OK:0000000000000006:0000000000000000" := by decide +kernel

/-- R69 and R70: the three forms of a line, a comment, a pseudo-command, and lines with an operand too few or too large. -/
theorem test_read_line :
    readLine Config.default "STW 0, 0xDEAD_BEEF -> OK ; a comment" =
      some { command := .stw 0#64 0xDEADBEEF#64, expected := some (.ok, 0#64, 0#64) } ∧
    readLine Config.default "MAYCON.QR 0x1F, 0x1F0 -> OK 1" =
      some { command := .maycon 0x3FF0#64, expected := some (.ok, 1#64, 0#64) } ∧
    readLine Config.default "NEW" = some { command := .clear, expected := none } ∧
    readLine Config.default "STW 0" = none ∧ readLine Config.default "LDW 18446744073709551616" = none ∧
    readLine Config.default "INSERT.QR 131072, 0" = none := by decide +kernel
/-- Log 20: no word without a digit, no expected data word of 2^64 or more. -/
theorem test_read_line_open : readLine Config.default "LDW _" = none ∧ readLine Config.default "LDW 0x_" = none ∧
    readLine Config.default "LDW 0 -> OK 18446744073709551616" = none := by decide +kernel
/-- R63: status in bits 130:128, d1 in 127:64, d0 in 63:0. -/
theorem test_response_word : { State.reset with st := .badArg }.rsp = 0x300000000000000000000000000000000#131 ∧
    { State.reset with d0 := 7#64, d1 := 5#64 }.rsp = 0x50000000000000007#131 := by decide
/-- Section 1.3, three of its lines, from reset. -/
theorem test_run_lines :
    ((["NEW -> OK", "INSERT.QR 0x1F, 0x1F0 -> OK", "REMRD 0x1F -> OK 0x1F0 3"].mapM (readLine Config.default)).bind
      (runLines State.reset)).isSome = true := by decide +kernel

/-! ### Well-formedness: one ill-formed command for each check of R64 -/

theorem test_illFormed_refused :
    ¬ (Instr.rank64 0#64 64#64).WellFormed Config.small ∧ ¬ (Instr.select64 1#64 0#64).WellFormed Config.small ∧
    ¬ (Instr.ldw 8#64).WellFormed Config.small ∧ ¬ (Instr.stw 8#64 0#64).WellFormed Config.small ∧
    ¬ (Instr.remrd 64#64).WellFormed Config.small ∧ ¬ (Instr.remwr 64#64 0#64).WellFormed Config.small ∧
    ¬ (Instr.remwr 0#64 0x20#64).WellFormed Config.small ∧ ¬ (Instr.grank 64#64).WellFormed Config.small ∧
    ¬ (Instr.gsel 0#64).WellFormed Config.small ∧ ¬ (Instr.runend 64#64).WellFormed Config.small ∧
    ¬ (Instr.fas 64#64).WellFormed Config.small ∧ ¬ (Instr.homecov 64#64).WellFormed Config.small ∧
    ¬ (Instr.rdcsr 9#64).WellFormed Config.small := by decide
theorem test_wellFormed_accepted :
    (Instr.rank64 0#64 63#64).WellFormed Config.small ∧ (Instr.ldw 7#64).WellFormed Config.small ∧
    (Instr.remwr 63#64 0x1F#64).WellFormed Config.small ∧ (Instr.rdcsr 8#64).WellFormed Config.small ∧
    (Instr.insert 0xFFFFFFFFFFFFFFFF#64).WellFormed Config.small := by decide

/-! ### One step of each command -/

/-- Section 1.5. -/
theorem test_rank64 : response (exec (.rank64 0xEE#64 63#64) State.reset) = some (.ok, 6#64, 0#64) := by decide
/-- Section 1.6. -/
theorem test_select64 : response (exec (.select64 0x8800000000000000#64 2#64) State.reset) = some (.ok, 63#64, 0#64) := by decide
/-- Section 2.1: the sentinel, and a rank that is not truncated. -/
theorem test_select64_sentinel :
    response (exec (.select64 0xFFFFFFFFFFFFFFFF#64 0x100000000#64) State.reset) = some (.ok, 64#64, 0#64) := by decide
/-- Section 1.3: LDW 7 after INSERT.QR 0x1F, 0x1F0. -/
theorem test_ldw : response (exec (.ldw 7#64) (after big [.insert 0x3FF0#64])) = some (.ok, 0xF8000000#64, 0#64) := by decide +kernel
/-- Section 2.3: the offset word is a plain word. -/
theorem test_stw : response (exec (.ldw 0#64) (after big [.stw 0#64 0xDEADBEEF#64])) = some (.ok, 0xDEADBEEF#64, 0#64) := by decide
/-- Section 1.3: remainder, and D1 = 3. -/
theorem test_remrd : response (exec (.remrd 0x1F#64) (after big [.insert 0x3FF0#64])) = some (.ok, 0x1F0#64, 3#64) := by decide +kernel
/-- Section 2.3: slot 7 straddles words 3 and 4. -/
theorem test_remwr_straddles : (after big [.remwr 7#64 0x1FF#64]).mem.cells = [(3, 0x8000000000000000#64), (4, 0xFF#64)] := by
  decide +kernel
/-- Section 2.3: the lane is replaced, not ORed. -/
theorem test_remwr_replaces : (after big [.remwr 7#64 0x1FF#64, .remwr 7#64 0x100#64]).mem.cells = [(4, 0x80#64)] := by decide +kernel
/-- Section 3.2, third INSERT: homes 2 and 3. -/
theorem test_grank : response (exec (.grank 0x3F#64) cluster) = some (.ok, 2#64, 0#64) := by decide +kernel
/-- Section 3.2: run-ends 3 and 4. -/
theorem test_gsel : response (exec (.gsel 2#64) cluster) = some (.ok, 4#64, 0#64) := by decide +kernel
theorem test_gsel_sentinel : response (exec (.gsel 3#64) cluster) = some (.ok, 64#64, 0#64) := by decide +kernel
/-- Section 1.2, third row: (1, 8, 0). -/
theorem test_runend : response (exec (.runend 0#64) (after small [.stw 1#64 1#64, .stw 2#64 8#64])) = some (.ok, 3#64, 1#64) := by
  decide +kernel
/-- Section 1.2, third row. -/
theorem test_fas : response (exec (.fas 0#64) (after small [.stw 1#64 1#64, .stw 2#64 8#64])) = some (.ok, 4#64, 0#64) := by
  decide +kernel
/-- Section 2.6: the last slot is taken. -/
theorem test_fas_overflow : response (exec (.fas 63#64) topFull) = some (.overflow, 0#64, 0#64) := by decide +kernel
/-- Section 1.2, seventh row: (2, 2, 2) is not covered. -/
theorem test_homecov : response (exec (.homecov 2#64) (after small [.stw 1#64 2#64, .stw 2#64 2#64])) = some (.ok, 0#64, 0#64) := by
  decide +kernel
/-- Section 2.2. -/
theorem test_split : response (exec (.split 0xFFFFFFFFFFFFFFFF#64) State.reset) = some (.ok, 0x1FFFF#64, 0x1FF#64) := by decide
/-- Section 3.2, first three INSERTs. -/
theorem test_insert_cluster : cluster.mem.cells = [(1, 0xC#64), (2, 0x18#64), (3, 0xC5A800#64)] := by decide +kernel
/-- Section 3.2, fourth INSERT: slot 4 moves to 5. -/
theorem test_insert_shift : (after cluster [.insert 0x4D#64]).mem.cells = [(1, 0xC#64), (2, 0x30#64), (3, 0x18D5A800#64)] := by
  decide +kernel
/-- Section 3.2: found. -/
theorem test_maycon_found : response (exec (.maycon 0x4A#64) cluster) = some (.ok, 1#64, 0#64) := by decide +kernel
/-- Section 2.7: the zero lane below the home is not compared. -/
theorem test_maycon_bound_first : response (exec (.maycon 0x40#64) cluster) = some (.ok, 0#64, 0#64) := by decide +kernel
/-- Section 2.8: CLEAR sets INIT and leaves FAULT. -/
theorem test_clear_keeps_fault : response (exec (.rdcsr 8#64) (after State.reset [.ldw 0#64, .clear])) = some (.ok, 3#64, 0#64) := by decide
/-- Section 1.1. -/
theorem test_rdcsr : response (exec (.rdcsr 3#64) State.reset) = some (.ok, 0x3FFFE00#64, 0#64) := by decide
/-- Section 2.8: BADARG before UNINIT. -/
theorem test_priority : response (exec (.ldw 8#64) (State.resetOf Config.small)) = some (.badArg, 0#64, 0#64) ∧
    response (exec (.ldw 7#64) (State.resetOf Config.small)) = some (.uninit, 0#64, 0#64) := by decide
/-- Section 2.5: a missing run-end. -/
theorem test_corrupt : response (exec (.fas 0#64) broken) = some (.corrupt, 0#64, 0#64) := by decide +kernel
/-- Section 2.8: opcode 0xFF through the latches. -/
theorem test_illegal_step : response (step (State.reset.withFetchWord 136 (0xFF * 2 ^ 128 + 1))) = some (.illegal, 0#64, 0#64) := by decide
/-- A reset sampled while BUSY: no response, the reset state (R172). -/
theorem test_reset_while_busy : step { smallBusy with inputs := [resetPins] } = .next (State.resetOf Config.small) := by rfl
/-- A command presented, executed and taken: three steps (R60, R176). -/
theorem test_accept_execute_deliver :
    (nextOf (step { State.reset with inputs := [present (encode (.rdcsr 1#64))] })).busy = true ∧
    response (step (nextOf (step { State.reset with inputs := [present (encode (.rdcsr 1#64))] }))) = some (.ok, 9#64, 0#64) ∧
    (nextOf (step { (nextOf (exec (.rdcsr 1#64) State.reset)) with inputs := [takePins] })).rspValid = false := by decide

/-- Log 19, a response waiting: the duty is kept by presenting the same command again or by a reset, and broken by another command, by
quiet pins, and by the end of the list. -/
theorem test_holds_command :
    { small with inputs := [present 1#136, present 1#136] }.holdsCommand = true ∧
    { small with inputs := [present 1#136, resetPins] }.holdsCommand = true ∧
    { small with inputs := [present 1#136, present 2#136] }.holdsCommand = false ∧
    { small with inputs := [present 1#136, Pins.quiet] }.holdsCommand = false ∧
    { small with inputs := [present 1#136] }.holdsCommand = false := by decide

/-! ### Witnesses: a state and operands that meet each statement's hypotheses -/

theorem witness_encode_then_decode : decode 0x0F00000000000004560000000000000123#136 = .ok .clear ∧
    (0x10#136 &&& (opcodeRow "LDW" 3).mask) ≠ (opcodeRow "LDW" 3).pattern ∧
    (0x0300000000000000000000000000005FFF#136 &&& (opcodeRow "LDW" 3).mask) = (opcodeRow "LDW" 3).pattern := by decide
theorem witness_pseudo_commands : Config.default.Legal ∧ 0x1FFFF < 2 ^ Config.default.q ∧ 0x1FF < 2 ^ Config.default.r := by decide
theorem witness_step_executes : smallBusy.pins.rst = false ∧ smallBusy.busy = true ∧ decode smallBusy.latched = .ok (.ldw 0#64) := by decide
theorem witness_fetch_word : decodeTableWord 136 (3 * 2 ^ 128) = some (.ldw 0#64) := by decide
theorem witness_illegal : (smallBusy.pins.rst = false ∧ { smallBusy with op := 0x00#8 }.busy = true ∧ (0x00#8).toNat = 0) ∧
    (0x11 ≤ (0x11#8).toNat ∧ 0x11 ≤ (0xFF#8).toNat) := by decide
theorem witness_accept : (present 0#136).rst = false ∧ State.reset.cmdReady = true ∧ (present 0#136).cmdValid = true := by decide
theorem witness_no_acceptance : smallBusy.pins.rst = false ∧ smallBusy.cmdReady = false ∧
    small.pins.rst = false ∧ small.cmdReady = false ∧ small.busy = false ∧ small.rspValid = true := by decide
theorem witness_no_acceptance_next : ∃ t, step smallBusy = .next t := ⟨_, rfl⟩
theorem witness_response_held : small.pins.rst = false ∧ small.busy = false ∧ small.rspValid = true := by decide
theorem witness_response_taken : { small with inputs := [takePins] }.pins.rst = false ∧ small.pins.rspReady = false ∧
    { small with inputs := [takePins] }.pins.rspReady = true ∧ { small with inputs := [takePins] }.rspValid = true := by decide
/-- A state of each status: OK, OVERFLOW, ILLEGAL, BADARG, UNINIT, CORRUPT. -/
theorem witness_output_pins : small.st = .ok ∧ (nextOf (exec (.fas 63#64) topFull)).st = .overflow ∧
    (nextOf (step (State.reset.withFetchWord 136 (0xFF * 2 ^ 128 + 1)))).st = .illegal ∧ (nextOf (exec (.ldw 8#64) small)).st = .badArg ∧
    (nextOf (exec (.ldw 7#64) smallBusy)).st = .uninit ∧ (nextOf (exec (.fas 0#64) broken)).st = .corrupt := by decide +kernel
theorem witness_idle : State.reset.pins.rst = false ∧ State.reset.cmdReady = true ∧ State.reset.pins.cmdValid = false := by decide
theorem witness_reset_sample : { smallBusy with inputs := [resetPins] }.pins.rst = true ∧
    (Instr.ldw 0#64).operandsLegal Config.small = true ∧ (Instr.ldw 0#64).touchesStore = true := by decide
theorem witness_reset_state : (Instr.ldw 0x5FFF#64).operandsLegal State.reset.cfg = true ∧ (Instr.ldw 0x5FFF#64).touchesStore = true := by
  decide
theorem witness_unobservable : smallBusy.init = false ∧ ∃ t, exec (.ldw 0#64) smallBusy = .next t := ⟨rfl, _, rfl⟩
theorem witness_inv_small : small.Inv :=
  ⟨by decide, by decide, by decide, by decide, by decide, by decide, by decide⟩
theorem witness_inv_step : ∃ t, step small = .next t := ⟨_, rfl⟩
theorem witness_reset_legal : Config.small.Legal := by decide
theorem witness_bad_arg : ¬ (Instr.ldw 8#64).WellFormed small.cfg ∧ (Instr.ldw 7#64).WellFormed small.cfg := by decide
theorem witness_uninit : (Instr.ldw 7#64).WellFormed smallBusy.cfg ∧ (Instr.ldw 7#64).touchesStore = true ∧ smallBusy.init = false ∧
    response (exec (.ldw 7#64) smallBusy) = some (.uninit, 0#64, 0#64) := by decide
theorem witness_error_end : (nextOf (exec (.ldw 8#64) small)).st ≠ .ok ∧ exec (.ldw 8#64) small = .next (nextOf (exec (.ldw 8#64) small)) :=
  ⟨by decide, rfl⟩
theorem witness_error_step : (present 0#136).rst = false ∧ (present 0#136).cmdValid = true ∧ smallBusy.pins.rst = false ∧
    smallBusy.busy = true ∧ (nextOf (step smallBusy)).st ≠ .ok ∧ step smallBusy = .next (nextOf (step smallBusy)) :=
  ⟨rfl, rfl, rfl, rfl, by decide, rfl⟩
theorem witness_fault_sticky : (∃ t, step { smallBusy with fault := true } = .next t) ∧ (∃ t, step smallBusy = .next t) ∧
    smallBusy.fault = false := ⟨⟨_, rfl⟩, ⟨_, rfl⟩, rfl⟩
theorem witness_fault_behaviour : Instr.rdcsr 7#64 ≠ Instr.rdcsr 8#64 ∧ ∃ t, exec (.rdcsr 7#64) small = .next t := ⟨by decide, _, rfl⟩
theorem witness_corrupt : broken.cfg.Legal ∧ response (exec (.homecov 0#64) broken) = some (.corrupt, 0#64, 0#64) := by decide +kernel
theorem witness_overflow : topFull.cfg.Legal ∧ response (exec (.fas 63#64) topFull) = some (.overflow, 0#64, 0#64) := by decide +kernel
theorem witness_frame : ∃ t, exec (.insert 0x4A#64) small = .next t := ⟨_, rfl⟩
theorem witness_offset_words : small.cfg.Legal ∧ 0 < small.cfg.nblocks := by decide
theorem witness_rank64 : 63 < (64#64).toNat ∧ (63#64).toNat ≤ 63 ∧ Command.op (encode (.rank64 1#64 2#64)) = 0x01#8 := by decide
theorem witness_select64 : (0#64).toNat = 0 ∧ 1 ≤ (1#64).toNat ∧ 1 ≤ (0xFFFFFFFFFFFFFFFF#64).toNat ∧
    Command.op (encode (.select64 1#64 2#64)) = 0x02#8 := by decide
theorem witness_rank_select_laws : 1 ≤ popcount 0xEE#64 ∧ popcount 0xEE#64 < 7 ∧ (0xEE#64).getLsbD 7 = true ∧ 0xEE#64 ≠ 0#64 := by decide
theorem witness_ldw_stw : small.mem.wf = true ∧ small.cfg.nwords ≤ (8#64).toNat ∧ (7#64).toNat < small.cfg.nwords ∧ small.init = true ∧
    smallBusy.mem.wf = true ∧ (7#64).toNat < smallBusy.cfg.nwords ∧ smallBusy.init = false ∧
    Command.op (encode (.ldw 7#64)) = 0x03#8 ∧ Command.op (encode (.stw 7#64 1#64)) = 0x04#8 := by decide
/-- Slot commands: out of range, the last slot before CLEAR, the last slot after it (REMRD, REMWR, GRANK, RUNEND, FAS, HOMECOV). -/
theorem witness_slot_operands : small.cfg.Legal ∧ small.mem.wf = true ∧ small.cfg.nslots ≤ (64#64).toNat ∧
    (63#64).toNat < small.cfg.nslots ∧ small.init = true ∧ smallBusy.cfg.Legal ∧ (63#64).toNat < smallBusy.cfg.nslots ∧
    smallBusy.init = false ∧ 2 ^ small.cfg.r ≤ (0x20#64).toNat ∧ (0x1F#64).toNat < 2 ^ small.cfg.r := by decide
theorem witness_slot_opcodes : Command.op (encode (.remrd 1#64)) = 0x05#8 ∧ Command.op (encode (.remwr 1#64 1#64)) = 0x06#8 ∧
    Command.op (encode (.grank 1#64)) = 0x07#8 ∧ Command.op (encode (.gsel 1#64)) = 0x08#8 ∧ Command.op (encode (.runend 1#64)) = 0x09#8 ∧
    Command.op (encode (.fas 1#64)) = 0x0A#8 ∧ Command.op (encode (.homecov 1#64)) = 0x0B#8 ∧ Command.op (encode (.split 1#64)) = 0x0C#8 ∧
    Command.op (encode (.insert 1#64)) = 0x0D#8 ∧ Command.op (encode (.maycon 1#64)) = 0x0E#8 ∧ Command.op (encode .clear) = 0x0F#8 ∧
    Command.op (encode (.rdcsr 1#64)) = 0x10#8 := by decide
theorem witness_gsel : cluster.cfg.Legal ∧ cluster.init = true ∧ (0#64).toNat = 0 ∧ 1 ≤ (1#64).toNat ∧ smallBusy.init = false := by
  decide +kernel
/-- RUNEND and HOMECOV: no home, a run-end that is missing, a run-end that is there. -/
theorem witness_run_end_clauses : homesUpTo small.cfg small.mem 63 = 0 ∧
    (homesUpTo broken.cfg broken.mem 63 ≠ 0 ∧ runEndNo broken.cfg broken.mem (homesUpTo broken.cfg broken.mem 63) = none) ∧
    (homesUpTo cluster.cfg cluster.mem 2 ≠ 0 ∧ runEndNo cluster.cfg cluster.mem (homesUpTo cluster.cfg cluster.mem 2) = some 3) := by
  decide +kernel
theorem cluster_slot5_free : FasRounds cluster.cfg cluster.mem 5 (.ok 5) :=
  .free 5 4 (by decide +kernel) (by decide +kernel) (by decide)
theorem cluster_slot4_covered : FasRounds cluster.cfg cluster.mem 4 (.ok 5) :=
  .covered 4 4 _ (by decide +kernel) (by decide +kernel) (by decide) (by decide) cluster_slot5_free
theorem witness_fas_rounds : FasRounds cluster.cfg cluster.mem 2 (.ok 5) :=
  .covered 2 3 _ (by decide +kernel) (by decide +kernel) (by decide) (by decide) cluster_slot4_covered
theorem witness_fas_rounds_past : FasRounds topFull.cfg topFull.mem 63 (.error .overflow) :=
  .past 63 63 (by decide +kernel) (by decide +kernel) (by decide) (by decide)
theorem witness_split : State.reset.cfg.Legal := by decide
theorem witness_insert_turned_away :
    (smallBusy.cfg.Legal ∧ smallBusy.init = false) ∧
    (broken.init = true ∧ homesUpTo broken.cfg broken.mem (hashHome broken.cfg 0#64).toNat ≠ 0 ∧
      runEndNo broken.cfg broken.mem (homesUpTo broken.cfg broken.mem (hashHome broken.cfg 0#64).toNat) = none) ∧
    (topFull.init = true ∧ (hashHome topFull.cfg 0x7E1#64).toNat = 63 ∧ homesUpTo topFull.cfg topFull.mem 63 ≠ 0 ∧
      runEndNo topFull.cfg topFull.mem (homesUpTo topFull.cfg topFull.mem 63) = some 63) := by decide +kernel
theorem witness_insert_empty_home :
    (small.cfg.Legal ∧ small.mem.wf = true ∧ small.init = true ∧ homesUpTo small.cfg small.mem 63 = 0 ∧
      63 = (0x7E1#64).toNat / 2 ^ small.cfg.r % 2 ^ small.cfg.q) ∧
    (cluster.mem.wf = true ∧ 5 = (0xA1#64).toNat / 2 ^ cluster.cfg.r % 2 ^ cluster.cfg.q ∧
      runEndNo cluster.cfg cluster.mem (homesUpTo cluster.cfg cluster.mem 5) = some 4 ∧ 4 < 5) := by decide +kernel
/-- With `witness_fas_rounds`: home 2, e = 3, n = 5, a shift of one slot. -/
theorem witness_insert_obstructed : cluster.cfg.Legal ∧ cluster.mem.wf = true ∧ cluster.init = true ∧
    2 = (0x4D#64).toNat / 2 ^ cluster.cfg.r % 2 ^ cluster.cfg.q ∧ homesUpTo cluster.cfg cluster.mem 2 ≠ 0 ∧
    runEndNo cluster.cfg cluster.mem (homesUpTo cluster.cfg cluster.mem 2) = some 3 ∧ 2 ≤ 3 := by decide +kernel
theorem witness_maycon : (smallBusy.cfg.Legal ∧ smallBusy.init = false) ∧
    (small.init = true ∧ slotOcc small.cfg small.mem 63 = false ∧ 63 = (0x7E1#64).toNat / 2 ^ small.cfg.r % 2 ^ small.cfg.q) ∧
    (broken.init = true ∧ slotOcc broken.cfg broken.mem 0 = true ∧
      runEndNo broken.cfg broken.mem (homesUpTo broken.cfg broken.mem 0) = none) ∧
    (cluster.init = true ∧ slotOcc cluster.cfg cluster.mem 2 = true ∧
      runEndNo cluster.cfg cluster.mem (homesUpTo cluster.cfg cluster.mem 2) = some 3) := by decide +kernel
theorem witness_rdcsr : 8 < (9#64).toNat ∧
    [State.reset.cfg.q, State.reset.cfg.r, 26, 0x3FFFE00, 0x1FF, 2048, 131072, 24576, 0][(8#64).toNat]? = some 0 := by decide
theorem witness_cleared_filter : exec .clear smallBusy = .next (nextOf (exec .clear smallBusy)) ∧ smallBusy.cfg.Legal ∧
    (63#64).toNat < (nextOf (exec .clear smallBusy)).cfg.nslots := ⟨rfl, by decide, by decide⟩
theorem witness_well_formed_store : cluster.cfg.Legal ∧ cluster.init = true ∧ cluster.mem.wf = true ∧
    StoreWellFormed cluster.cfg cluster.mem := by decide +kernel
/-- FAS and HOMECOV on `cluster`: from slot 2 the lowest empty slot is 5; the last slot is empty too. -/
theorem witness_lowest_empty_slot : (2#64).toNat < cluster.cfg.nslots ∧ slotCovered cluster.cfg cluster.mem 5 = false ∧
    (∀ k, k < 5 → 2 ≤ k → slotCovered cluster.cfg cluster.mem k = true) ∧ slotCovered cluster.cfg cluster.mem 63 = false := by
  decide +kernel
theorem witness_no_empty_slot : StoreWellFormed topFull.cfg topFull.mem ∧ topFull.init = true ∧
    slotCovered topFull.cfg topFull.mem 63 = true := by decide +kernel
theorem witness_insert_ok : (nextOf (exec (.insert 0x4D#64) cluster)).st = .ok ∧
    (nextOf (exec (.insert 0x7E1#64) topFull)).st = .overflow := by decide +kernel
theorem witness_after_inserts : (afterInserts small [0x4A#64, 0x4B#64, 0x6C#64]).isSome = true ∧
    exec .clear (State.resetOf Config.small) = .next small := ⟨by decide +kernel, rfl⟩
/-- The step of a BUSY unit that executes an INSERT on a store fit for the filter's guarantees. -/
def insertBusy : State := { cluster.accept (encode (.insert 0x4D#64)) with rspValid := false }
theorem witness_filter_store_inv : insertBusy.Inv :=
  ⟨by decide +kernel, by decide +kernel, by decide +kernel, by decide +kernel, by decide +kernel, by decide +kernel, by decide +kernel⟩
theorem witness_filter_store : FilterStore insertBusy.cfg insertBusy.mem := by
  refine ⟨by decide +kernel, ?_⟩
  have h : ∀ s, s < insertBusy.cfg.nslots → slotCovered insertBusy.cfg insertBusy.mem s = false →
    slotRem insertBusy.cfg insertBusy.mem s = 0#64 := by decide +kernel
  exact h
theorem witness_filter_step : insertBusy.busy = true ∧ decode insertBusy.latched = .ok (.insert 0x4D#64) ∧
    rawWrite (.insert 0x4D#64) = false ∧ (nextOf (step insertBusy)).init = true := by decide +kernel

end Sys2Proof.Tests
end

section
/-! PROOF. What a command can end with, said once: one inductive with a case per kind of end, each with the conditions it happens under,
and the lemma that every command ends in one of them. -/

namespace Sys2Proof.Machine

/-- What a change of the store from `m` to `m'` keeps: the canonical form, and the address range when the parameters are legal. -/
structure KeepsStoreForm (c : Config) (m m' : Memory) : Prop where
  wf : m.wf = true → m'.wf = true
  range : c.Legal → m.inRange c = true → m'.inRange c = true

theorem write_keepsStoreForm {c : Config} (m : Memory) {addr : Nat} (v : Word) (ha : addr < c.nwords) :
    KeepsStoreForm c m (m.write addr v) :=
  ⟨fun h => Memory.write_wf h _ _, fun _ h => Memory.write_inRange h _ ha⟩

theorem remWrite_keepsStoreForm {c : Config} (m : Memory) {x : Nat} (v : Word) (hx : x < c.nslots) :
    KeepsStoreForm c m (remWrite c m x v) :=
  ⟨fun h => remWrite_wf h _ _, fun hc h => remWrite_inRange hc h hx _⟩

theorem insertStore_keepsStoreForm {c : Config} {m m' : Memory} {h : Word} (hi : insertStore c m h = .ok m') :
    KeepsStoreForm c m m' :=
  ⟨fun hm => insertStore_wf hm hi, fun hc hm => insertStore_inRange hc hm hi⟩

/-- The state in which command `i` can end when it starts in `s`. The order of the checks is that of 60_exceptions.md R158: the operands
first, then INIT, then what is found in the store. -/
inductive CommandEnd (i : Instr) (s : State) : State → Prop where
  /-- An operand is outside its legal range (R152). -/
  | badArg : ¬ i.WellFormed s.cfg → CommandEnd i s (s.raise .badArg)
  /-- The store is needed and has no value (R153). -/
  | uninit : i.WellFormed s.cfg → i.touchesStore = true → s.init = false → CommandEnd i s (s.raise .uninit)
  /-- A search of the store fails (R154, R157). -/
  | searchFailed (st : Status) : i.WellFormed s.cfg → i.touchesStore = true → s.init = true → st = .corrupt ∨ st = .overflow →
      CommandEnd i s (s.raise st)
  /-- The command ends OK and leaves the store alone. -/
  | answered (x y : Word) : i.WellFormed s.cfg → (i.touchesStore = true → s.init = true) → CommandEnd i s (s.finish x y)
  /-- The command ends OK and has written words of the store (20_memory.md R42). -/
  | stored (m : Memory) : i.WellFormed s.cfg → i.writesStore = true → s.init = true → KeepsStoreForm s.cfg s.mem m →
      CommandEnd i s ({ s with mem := m }.finish 0#64 0#64)
  /-- CLEAR has given every word of the store the value zero (43_filter_ops.md R139). -/
  | cleared : i = .clear → CommandEnd i s ({ s with mem := Memory.zero, init := true }.finish 0#64 0#64)

section ends

variable {i : Instr} {s u : State}

/-- The check of the operands that a command begins with: past it the command is well-formed. -/
theorem CommandEnd.guarded {p : Prop} [Decidable p] (hp : p ↔ ¬ i.WellFormed s.cfg) (hu : i.WellFormed s.cfg → CommandEnd i s u) :
    CommandEnd i s (if p then s.raise .badArg else u) := by
  split
  · next h => exact .badArg (hp.mp h)
  · next h => exact hu (not_not.mp fun hw => h (hp.mpr hw))

/-- The check of INIT that a store-touching command goes on with: past it the store has a value. -/
theorem CommandEnd.withStore {k : Memory → State} (hw : i.WellFormed s.cfg) (ht : i.touchesStore = true)
    (hk : s.init = true → CommandEnd i s (k s.mem)) : CommandEnd i s (s.withStore k) := by
  cases hi : s.init with
  | false => exact State.withStore_uninit hi k ▸ .uninit hw ht hi
  | true => exact State.withStore_init hi k ▸ hk hi

/-- A command that reads the store, once the store is known to have a value, answers without writing it. -/
theorem CommandEnd.read {x y : Memory → Word} (hw : i.WellFormed s.cfg) (ht : i.touchesStore = true) :
    CommandEnd i s (s.withStore fun m => s.finish (x m) (y m)) :=
  .withStore hw ht fun hi => .answered _ _ hw fun _ => hi

end ends

/-- INSERT on the store fails as the searches it begins with do (60_exceptions.md R154, R157). -/
theorem insertStore_error {c : Config} {m : Memory} {h : Word} {st : Status} (he : insertStore c m h = .error st) :
    st = .corrupt ∨ st = .overflow := by
  rcases insertStore_cases (c := c) (m := m) (h := h) with ⟨st', hst, h'⟩ | h' | ⟨e, t, n, _, _, _, h'⟩ <;> rw [he] at h'
  · exact Except.error.inj h' ▸ hst
  · cases h'
  · cases h'

/-- The registers are those numbered 0 to 8 (10_state.md R25, R26). -/
theorem csrValue_eq_none_iff (s : State) (n : Nat) : csrValue s n = none ↔ 8 < n := by
  match n with
  | 0 | 1 | 2 | 3 | 4 | 5 | 6 | 7 | 8 => simp [csrValue]
  | n + 9 => simp [csrValue]

theorem exec_runend_end (a : Word) (s : State) : ∃ t, exec (.runend a) s = .next t ∧ CommandEnd (.runend a) s t := by
  refine ⟨_, rfl, .guarded (by simp [Instr.operandsLegal]) fun hw => .withStore hw rfl fun hi => ?_⟩
  split
  · next h => exact .searchFailed _ hw rfl hi (.inl (runEndAt_error h))
  · exact .answered _ _ hw fun _ => hi
  · exact .answered _ _ hw fun _ => hi

theorem exec_fas_end (a : Word) (s : State) : ∃ t, exec (.fas a) s = .next t ∧ CommandEnd (.fas a) s t := by
  refine ⟨_, rfl, .guarded (by simp [Instr.operandsLegal]) fun hw => .withStore hw rfl fun hi => ?_⟩
  split
  · next h => exact .searchFailed _ hw rfl hi (fas_error h)
  · exact .answered _ _ hw fun _ => hi

theorem exec_homecov_end (a : Word) (s : State) : ∃ t, exec (.homecov a) s = .next t ∧ CommandEnd (.homecov a) s t := by
  refine ⟨_, rfl, .guarded (by simp [Instr.operandsLegal]) fun hw => .withStore hw rfl fun hi => ?_⟩
  split
  · next h => exact .searchFailed _ hw rfl hi (.inl (runEndAt_error h))
  · exact .answered _ _ hw fun _ => hi
  · exact .answered _ _ hw fun _ => hi

theorem exec_insert_end (a : Word) (s : State) : ∃ t, exec (.insert a) s = .next t ∧ CommandEnd (.insert a) s t := by
  refine ⟨_, rfl, .withStore rfl rfl fun hi => ?_⟩
  split
  · next h => exact .searchFailed _ rfl rfl hi (insertStore_error h)
  · next h => exact .stored _ rfl rfl hi (insertStore_keepsStoreForm h)

theorem exec_maycon_end (a : Word) (s : State) : ∃ t, exec (.maycon a) s = .next t ∧ CommandEnd (.maycon a) s t := by
  refine ⟨_, rfl, .withStore rfl rfl fun hi => ?_⟩
  split
  · next h => exact .searchFailed _ rfl rfl hi (.inl (mayContain_error h))
  · exact .answered _ _ rfl fun _ => hi

theorem exec_stw_end (a b : Word) (s : State) : ∃ t, exec (.stw a b) s = .next t ∧ CommandEnd (.stw a b) s t := by
  refine ⟨_, rfl, .guarded (by simp [Instr.operandsLegal]) fun hw => .withStore hw rfl fun hi => .stored _ hw rfl hi ?_⟩
  exact write_keepsStoreForm _ _ (of_decide_eq_true hw)

theorem exec_remwr_end (a b : Word) (s : State) : ∃ t, exec (.remwr a b) s = .next t ∧ CommandEnd (.remwr a b) s t := by
  refine ⟨_, rfl, .guarded (by simp [Instr.operandsLegal]; omega) fun hw => .withStore hw rfl fun hi => .stored _ hw rfl hi ?_⟩
  obtain ⟨ha, _⟩ := Bool.and_eq_true_iff.mp hw
  exact remWrite_keepsStoreForm _ _ (of_decide_eq_true ha)

theorem exec_rdcsr_end (a : Word) (s : State) : ∃ t, exec (.rdcsr a) s = .next t ∧ CommandEnd (.rdcsr a) s t := by
  refine ⟨_, rfl, ?_⟩
  have hwf : (Instr.rdcsr a).WellFormed s.cfg ↔ csrValue s a.toNat ≠ none := by
    simp [csrValue_eq_none_iff, Instr.WellFormed, Instr.operandsLegal]
  split
  · next h => exact .badArg fun hw => hwf.mp hw h
  · next h => exact .answered _ _ (hwf.mpr (by simp [h])) (by simp [Instr.touchesStore])

/-- Every command answers a next state, one of its ends (10_state.md R31). -/
theorem exec_commandEnd (i : Instr) (s : State) : ∃ t, exec i s = .next t ∧ CommandEnd i s t := by
  cases i with
  | rank64 a b =>
    exact ⟨_, rfl, .guarded (by simp [Instr.operandsLegal]) fun hw => .answered _ _ hw (by simp [Instr.touchesStore])⟩
  | select64 a b =>
    exact ⟨_, rfl, .guarded (by simp [Instr.operandsLegal]) fun hw => .answered _ _ hw (by simp [Instr.touchesStore])⟩
  | ldw a => exact ⟨_, rfl, .guarded (by simp [Instr.operandsLegal]) fun hw => .read hw rfl⟩
  | stw a b => exact exec_stw_end a b s
  | remrd a => exact ⟨_, rfl, .guarded (by simp [Instr.operandsLegal]) fun hw => .read hw rfl⟩
  | remwr a b => exact exec_remwr_end a b s
  | grank a => exact ⟨_, rfl, .guarded (by simp [Instr.operandsLegal]) fun hw => .read hw rfl⟩
  | gsel a => exact ⟨_, rfl, .guarded (by simp [Instr.operandsLegal]) fun hw => .read hw rfl⟩
  | runend a => exact exec_runend_end a s
  | fas a => exact exec_fas_end a s
  | homecov a => exact exec_homecov_end a s
  | split a => exact ⟨_, rfl, .answered _ _ rfl (by simp [Instr.touchesStore])⟩
  | insert a => exact exec_insert_end a s
  | maycon a => exact exec_maycon_end a s
  | clear => exact ⟨_, rfl, .cleared rfl⟩
  | rdcsr a => exact exec_rdcsr_end a s

theorem commandEnd_of_exec {i : Instr} {s t : State} (h : exec i s = .next t) : CommandEnd i s t := by
  obtain ⟨t', h', hend⟩ := exec_commandEnd i s
  exact Host.Outcome.next.inj (h'.symm.trans h) ▸ hend

end Sys2Proof.Machine
end

section
/-! PROOF. The invariant of the unit is kept by every update of the state, so by every end of a command and by every step. -/

namespace Sys2Proof.Machine

/-- FAULT stays 0 exactly when it was 0 and the status is none of the four programmer errors (60_exceptions.md R156). -/
theorem faultAfter_eq_false_iff (f : Bool) (st : Status) : faultAfter f st = false ↔ f = false ∧ (st = .ok ∨ st = .overflow) := by
  cases st <;> simp [faultAfter, Status.setsFault]

/-! ### The updates of the state -/

namespace State.Inv

variable {s : State}

theorem respond (hs : s.Inv) {st : Status} {x y : Word} (hz : st ≠ .ok → x = 0#64 ∧ y = 0#64) : (s.respond st x y).Inv where
  legal := hs.legal
  memWf := hs.memWf
  memRange := hs.memRange
  noValue := hs.noValue
  oneAtATime := by simp
  zeroData := hz
  noFault h := ((faultAfter_eq_false_iff _ _).mp h).2

theorem raise (hs : s.Inv) (st : Status) : (s.raise st).Inv := hs.respond fun _ => ⟨rfl, rfl⟩

theorem finish (hs : s.Inv) (x y : Word) : (s.finish x y).Inv := hs.respond fun h => absurd rfl h

theorem withMem (hs : s.Inv) (hi : s.init = true) {m : Memory} (hm : KeepsStoreForm s.cfg s.mem m) : { s with mem := m }.Inv where
  legal := hs.legal
  memWf := hm.wf hs.memWf
  memRange := hm.range hs.legal hs.memRange
  noValue h := by simp [hi] at h
  oneAtATime := hs.oneAtATime
  zeroData := hs.zeroData
  noFault := hs.noFault

theorem cleared (hs : s.Inv) : { s with mem := Memory.zero, init := true }.Inv where
  legal := hs.legal
  memWf := Memory.zero_wf
  memRange := Memory.zero_inRange _
  noValue _ := rfl
  oneAtATime := hs.oneAtATime
  zeroData := hs.zeroData
  noFault := hs.noFault

theorem consumeInput (hs : s.Inv) : s.consumeInput.Inv :=
  ⟨hs.legal, hs.memWf, hs.memRange, hs.noValue, hs.oneAtATime, hs.zeroData, hs.noFault⟩

/-- A command is accepted only while no response waits (70_reset_and_hazards.md R176). -/
theorem accept (hs : s.Inv) (hv : s.rspValid = false) (w : Command) : (s.accept w).Inv :=
  ⟨hs.legal, hs.memWf, hs.memRange, hs.noValue, fun _ => hv, hs.zeroData, hs.noFault⟩

theorem deliver (hs : s.Inv) : s.deliver.Inv :=
  ⟨hs.legal, hs.memWf, hs.memRange, hs.noValue, fun _ => rfl, hs.zeroData, hs.noFault⟩

/-- Reset needs legal parameters and nothing else (10_state.md R34). -/
theorem resetNow (hc : s.cfg.Legal) : s.resetNow.Inv where
  legal := hc
  memWf := Memory.zero_wf
  memRange := Memory.zero_inRange _
  noValue _ := rfl
  oneAtATime := by simp
  zeroData := by simp
  noFault := by simp

/-! ### Commands and steps -/

theorem commandEnd (hs : s.Inv) {i : Instr} {t : State} (h : CommandEnd i s t) : t.Inv := by
  cases h with
  | badArg => exact hs.raise _
  | uninit => exact hs.raise _
  | searchFailed st => exact hs.raise st
  | answered x y => exact hs.finish x y
  | stored m _ _ hi hm => exact (hs.withMem hi hm).finish _ _
  | cleared => exact hs.cleared.finish _ _

theorem execLatched (hs : s.Inv) {t : State} (h : execLatched s = .next t) : t.Inv := by
  cases hd : decode s.latched with
  | ok i => exact hs.commandEnd (commandEnd_of_exec (execLatched_ok hd ▸ h))
  | error e =>
    rw [execLatched_illegal hd] at h
    exact Host.Outcome.next.inj h ▸ hs.raise .illegal

theorem stepWith (hs : s.Inv) {p : Pins} {t : State} (h : stepWith p s = .next t) : t.Inv := by
  rcases stepWith_cases p s with ⟨_, he⟩ | ⟨_, _, he⟩ | ⟨_, _, _, he⟩ | ⟨_, _, hv, he⟩ <;> rw [he] at h
  · exact Host.Outcome.next.inj h ▸ resetNow hs.legal
  · exact hs.execLatched h
  · obtain rfl := Host.Outcome.next.inj h
    split
    · exact hs.deliver
    · exact hs
  · obtain rfl := Host.Outcome.next.inj h
    split
    · exact hs.accept hv _
    · exact hs

end State.Inv

/-- Settles O16: the sample read changes no field the invariant speaks of, and each of the four things the unit can then do keeps it. -/
theorem stepKeepsInvariant : Obligations.StepKeepsInvariant :=
  fun _ _ hs h => hs.consumeInput.stepWith h

/-! ### The step of a BUSY unit -/

/-- A BUSY unit that is not being reset executes what its latches hold, illegal opcode or not (10_state.md R21, R24). -/
theorem step_of_busy {s : State} (hr : s.pins.rst = false) (hb : s.busy = true) : step s = execLatched s.consumeInput := by
  rcases stepWith_cases s.pins s.consumeInput with ⟨hr', _⟩ | ⟨_, _, he⟩ | ⟨_, hb', _⟩ | ⟨_, hb', _⟩
  · simp [hr] at hr'
  · exact he
  · simp [hb] at hb'
  · simp [hb] at hb'

/-- Settles O6: reading the sample leaves the latches alone, so the word that decodes in `s` is the word that is executed. -/
theorem stepExecutesLatchedCommand : Obligations.StepExecutesLatchedCommand :=
  fun _ _ hr hb hd => (step_of_busy hr hb).trans (execLatched_ok hd)

end Sys2Proof.Machine
end

section
/-! PROOF. The frame common to all commands, the totality of commands and steps, the reset state, and the step from a word placed in the
latches. -/

open Sys2Proof.Laws.EncodedFields (pack_fields)

namespace Sys2Proof.Machine

/-! ### The frame of a command -/

/-- The statuses that set FAULT are all but OK and OVERFLOW (60_exceptions.md R156). -/
theorem Status.setsFault_eq_decide (st : Status) : st.setsFault = decide (st ≠ .ok ∧ st ≠ .overflow) := by
  cases st <;> rfl

/-- Every end of a command is a response from the start state with at most the store and INIT replaced; INIT by CLEAR alone, the store by a
writing command alone. -/
theorem CommandEnd.eq_respond {i : Instr} {s t : State} (h : CommandEnd i s t) :
    ∃ m init st x y, t = State.respond { s with mem := m, init := init } st x y ∧ (i ≠ .clear → init = s.init) ∧
      (i.writesStore = false → m = s.mem) := by
  cases h with
  | badArg => exact ⟨_, _, _, _, _, rfl, fun _ => rfl, fun _ => rfl⟩
  | uninit => exact ⟨_, _, _, _, _, rfl, fun _ => rfl, fun _ => rfl⟩
  | searchFailed st => exact ⟨_, _, _, _, _, rfl, fun _ => rfl, fun _ => rfl⟩
  | answered x y => exact ⟨_, _, _, _, _, rfl, fun _ => rfl, fun _ => rfl⟩
  | stored m _ hw => exact ⟨_, _, _, _, _, rfl, fun _ => rfl, fun hn => by simp [hw] at hn⟩
  | cleared hi => exact ⟨_, _, _, _, _, rfl, fun hn => absurd hi hn, fun hn => by simp [hi, Instr.writesStore] at hn⟩

/-- Settles O26: a response names none of the framed fields, and FAULT follows the status. -/
theorem commandFrame : Obligations.CommandFrame := by
  intro i s t h
  obtain ⟨m, init, st, x, y, rfl, hinit, hmem⟩ := (commandEnd_of_exec h).eq_respond
  refine ⟨rfl, rfl, rfl, rfl, rfl, rfl, rfl, hinit, fun hw addr => ?_, ?_⟩
  · rw [State.respond_mem, hmem hw]
  · rw [State.respond_fault, State.respond_st, ← Status.setsFault_eq_decide]
    rfl

/-! ### Totality -/

theorem exec_answers (i : Instr) (s : State) : ∃ t, exec i s = .next t :=
  (exec_commandEnd i s).imp fun _ ⟨h, _⟩ => h

/-- Settles O18: a command has an end, and a step is a reset, a command or an update of the ports. -/
theorem everyCommandAndStepAnswers : Obligations.EveryCommandAndStepAnswers := by
  refine ⟨exec_answers, fun s => ?_⟩
  rcases stepWith_cases s.pins s.consumeInput with ⟨_, he⟩ | ⟨_, _, he⟩ | ⟨_, _, _, he⟩ | ⟨_, _, _, he⟩
  · exact ⟨_, he⟩
  · cases hd : decode s.consumeInput.latched with
    | ok i =>
      obtain ⟨t, ht⟩ := exec_answers i s.consumeInput
      exact ⟨t, he.trans ((execLatched_ok hd).trans ht)⟩
    | error e => exact ⟨_, he.trans (execLatched_illegal hd)⟩
  · exact ⟨_, he⟩
  · exact ⟨_, he⟩

/-! ### The reset state -/

theorem resetOf_inv {c : Config} (hc : c.Legal) : (State.resetOf c).Inv :=
  State.Inv.resetNow (s := State.resetOf c) hc

/-- Settles O17: reset gives the invariant from legal parameters alone, and (17, 9) is legal. -/
theorem resetHasInvariant : Obligations.ResetHasInvariant :=
  ⟨resetOf_inv (by decide), fun _ hc => resetOf_inv hc⟩

/-- A programmer error is raised as `endError` says (60_exceptions.md R155). -/
theorem State.raise_eq_endError (s : State) {st : Status} (h : st.setsFault = true) : s.raise st = endError s st := by
  simp [State.raise, State.respond, endError, faultAfter, h]

/-- A store-touching command with legal operands answers UNINIT while INIT = 0 (60_exceptions.md R153). -/
theorem exec_of_uninit {i : Instr} {s : State} (hw : i.WellFormed s.cfg) (ht : i.touchesStore = true) (hi : s.init = false) :
    exec i s = .next (endError s .uninit) := by
  obtain ⟨t, h, hend⟩ := exec_commandEnd i s
  rw [h, ← State.raise_eq_endError s rfl]
  cases hend with
  | badArg hn => exact absurd hw hn
  | uninit => rfl
  | searchFailed st _ _ hi' => simp [hi] at hi'
  | answered x y _ hi' => exact absurd (hi' ht) (by simp [hi])
  | stored m _ _ hi' => simp [hi] at hi'
  | cleared hc => simp [hc, Instr.touchesStore] at ht

/-- Settles O14: the latches and pins are read off the reset state, where INIT is 0. -/
theorem resetStateValues : Obligations.ResetStateValues :=
  ⟨rfl, rfl, rfl, rfl, rfl, rfl, fun _ hw ht => exec_of_uninit hw ht rfl⟩

/-! ### The word placed in the latches -/

/-- Decoding reads a command word through its fields, so it reads the latches as it reads the word they were filled from. -/
theorem decode_pack_fields (w : Command) : decode (Command.pack (Command.op w) (Command.a w) (Command.b w)) = decode w := by
  obtain ⟨hop, ha, hb⟩ := pack_fields (Command.op w) (Command.a w) (Command.b w)
  simp only [decode, hop, ha, hb]

/-- No reset is sampled right after a word has been placed in the latches. -/
theorem State.withLatched_pins_rst (s : State) (w : Command) : (s.withLatched w).pins.rst = false := by
  cases h : s.inputs <;> simp [State.pins, State.withLatched, h, Pins.quiet]

/-- Reading the sample after a word has been placed in the latches leaves the samples that were waiting. -/
theorem State.withLatched_consumeInput (s : State) (w : Command) :
    (s.withLatched w).consumeInput =
      { s with op := Command.op w, a := Command.a w, b := Command.b w, busy := true, rspValid := false } := by
  cases h : s.inputs <;> simp [State.consumeInput, State.withLatched, State.accept, h]

theorem decode_of_decodeTableWord {nbits w : Nat} {i : Instr} (h : decodeTableWord nbits w = some i) :
    decode (commandOfBits nbits w) = .ok i := by
  unfold decodeTableWord at h
  split at h
  · next hd => exact hd.trans (congrArg _ (Option.some.inj h))
  · cases h

/-- Settles O7: the placed word is what the latches hold, and its step is that of a BUSY unit. -/
theorem stepRunsFetchWord : Obligations.StepRunsFetchWord := by
  intro s nbits w i h
  refine ⟨stepExecutesLatchedCommand _ _ (s.withLatched_pins_rst _) rfl ?_, s.withLatched_consumeInput _⟩
  exact (decode_pack_fields _).trans (decode_of_decodeTableWord h)

end Sys2Proof.Machine
end

section
/-! PROOF. The layout of the store: the words of a block are all different, so a write to one of them leaves the others, and the offset
word is never among those that INSERT writes (20_memory.md R42, R43). -/

namespace Sys2Proof.Machine

/-! ### The words of a block are different words (20_memory.md R43) -/

/-- An address determines its block and its place in the block. -/
theorem blockAddr_inj {c : Config} {j j' k k' : Nat} (hk : k < c.bw) (hk' : k' < c.bw) :
    j * c.bw + k = j' * c.bw + k' ↔ j = j' ∧ k = k' := by
  refine ⟨fun h => ?_, fun ⟨hj, hk⟩ => hj ▸ hk ▸ rfl⟩
  have hdiv := congrArg (· / c.bw) h
  have hmod := congrArg (· % c.bw) h
  simp only [Nat.mul_add_mod', Nat.mod_eq_of_lt hk, Nat.mod_eq_of_lt hk'] at hmod
  simp only [Nat.add_comm _ k, Nat.add_comm _ k', Nat.add_mul_div_right _ _ (Nat.zero_lt_of_lt hk), Nat.div_eq_of_lt hk,
    Nat.div_eq_of_lt hk'] at hdiv
  exact ⟨by omega, hmod⟩

section words

variable {c : Config} {j j' w w' : Nat}

@[simp] theorem occWord_inj : occWord c j = occWord c j' ↔ j = j' :=
  (blockAddr_inj (by simp [Config.bw]) (by simp [Config.bw])).trans (and_iff_left rfl)

@[simp] theorem runWord_inj : runWord c j = runWord c j' ↔ j = j' :=
  (blockAddr_inj (by simp [Config.bw]) (by simp [Config.bw])).trans (and_iff_left rfl)

theorem remWord_inj (hw : w < c.r) (hw' : w' < c.r) : remWord c j w = remWord c j' w' ↔ j = j' ∧ w = w' := by
  have h := blockAddr_inj (c := c) (j := j) (j' := j') (k := 3 + w) (k' := 3 + w') (by simp [Config.bw]; omega)
    (by simp [Config.bw]; omega)
  simpa only [remWord, Nat.add_assoc, Nat.add_left_cancel_iff] using h

@[simp] theorem occWord_ne_runWord : occWord c j ≠ runWord c j' := fun h =>
  absurd ((blockAddr_inj (by simp [Config.bw]) (by simp [Config.bw])).mp h).2 (by decide)

@[simp] theorem offWord_ne_occWord : offWord c j ≠ occWord c j' := fun h =>
  absurd ((blockAddr_inj (k := 0) (by simp [Config.bw]) (by simp [Config.bw])).mp h).2 (by decide)

@[simp] theorem offWord_ne_runWord : offWord c j ≠ runWord c j' := fun h =>
  absurd ((blockAddr_inj (k := 0) (by simp [Config.bw]) (by simp [Config.bw])).mp h).2 (by decide)

/-- A word of a block's head, at an offset below 3, is no word of a remainder field. -/
theorem headWord_ne_remWord {k : Nat} (hk : k < 3) (hw : w < c.r) : j' * c.bw + k ≠ remWord c j w := fun h => by
  have h := ((blockAddr_inj (c := c) (k := k) (k' := 3 + w) (by simp [Config.bw]; omega) (by simp [Config.bw]; omega)).mp
    (by simpa only [remWord, Nat.add_assoc] using h)).2
  omega

end words

/-! ### The words the slot accessors leave unchanged -/

section frames

variable {c : Config} {m : Memory} {s addr : Nat}

theorem read_setOcc_of_ne (v : Bool) (h : addr ≠ occWord c (s / 64)) : (setOcc c m s v).read addr = m.read addr :=
  Memory.read_write_ne _ _ h

theorem read_setRun_of_ne (v : Bool) (h : addr ≠ runWord c (s / 64)) : (setRun c m s v).read addr = m.read addr :=
  Memory.read_write_ne _ _ h

theorem read_remWrite_of_ne (v : Word) (h : addr ≠ laneAddr c s) (h' : straddles c s = true → addr ≠ laneAddr c s + 1) :
    (remWrite c m s v).read addr = m.read addr := by
  simp only [remWrite]
  split
  · next hst => rw [Memory.read_write_ne _ _ (h' hst), Memory.read_write_ne _ _ h]
  · rw [Memory.read_write_ne _ _ h]

/-- Writing a lane leaves the words of every block's head. -/
theorem read_remWrite_head (hc : c.Legal) (v : Word) {j k : Nat} (hk : k < 3) :
    (remWrite c m s v).read (j * c.bw + k) = m.read (j * c.bw + k) :=
  read_remWrite_of_ne v (headWord_ne_remWord hk (laneWord_lt hc s)) fun hst =>
    headWord_ne_remWord (w := laneWord c s + 1) hk (laneWord_succ_lt hst)

end frames

/-! ### INSERT leaves the offset words -/

section offsets

variable {c : Config} (hc : c.Legal) (j : Nat)

include hc

theorem read_offWord_remWrite (m : Memory) (s : Nat) (v : Word) : (remWrite c m s v).read (offWord c j) = m.read (offWord c j) :=
  read_remWrite_head hc v (k := 0) (by decide)

theorem read_offWord_shiftRight (n k : Nat) (m : Memory) : (shiftRight c n k m).read (offWord c j) = m.read (offWord c j) := by
  induction n generalizing k m with
  | zero => rfl
  | succ n ih => rw [shiftRight, ih, copySlot, read_setRun_of_ne _ offWord_ne_runWord, read_offWord_remWrite hc]

theorem read_offWord_insertEmptyHome (m : Memory) (h0 : Nat) (h1 : Word) :
    (insertEmptyHome c m h0 h1).read (offWord c j) = m.read (offWord c j) := by
  rw [insertEmptyHome, read_setOcc_of_ne _ offWord_ne_occWord, read_setRun_of_ne _ offWord_ne_runWord, read_offWord_remWrite hc]

theorem read_offWord_insertAfter (m : Memory) (h0 : Nat) (h1 : Word) (e n : Nat) :
    (insertAfter c m h0 h1 e n).read (offWord c j) = m.read (offWord c j) := by
  simp only [insertAfter]
  rw [read_setOcc_of_ne _ offWord_ne_occWord, read_setRun_of_ne _ offWord_ne_runWord]
  split
  · rw [read_setRun_of_ne _ offWord_ne_runWord, read_offWord_remWrite hc, read_offWord_shiftRight hc]
  · rw [read_offWord_remWrite hc, read_offWord_shiftRight hc]

theorem read_offWord_insertStore {m m' : Memory} {h : Word} (hi : insertStore c m h = .ok m') :
    m'.read (offWord c j) = m.read (offWord c j) := by
  rcases insertStore_cases (c := c) (m := m) (h := h) with ⟨st, _, he⟩ | he | ⟨e, t, n, _, _, _, he⟩ <;> rw [he] at hi
  · cases hi
  · exact Except.ok.inj hi ▸ read_offWord_insertEmptyHome hc j m _ _
  · exact Except.ok.inj hi ▸ read_offWord_insertAfter hc j m _ _ e n

end offsets

/-! ### What INSERT can end with -/

/-- INSERT ends with the store unchanged and a status other than OK, or OK with the store `insertStore` answers. -/
theorem exec_insert_cases {h : Word} {s t : State} (he : exec (.insert h) s = .next t) :
    (∃ st, st ≠ .ok ∧ t = s.raise st) ∨
    (∃ m, s.init = true ∧ insertStore s.cfg s.mem h = .ok m ∧ t = { s with mem := m }.finish 0#64 0#64) := by
  obtain rfl := Host.Outcome.next.inj he
  cases hi : s.init with
  | false => exact .inl ⟨.uninit, by decide, State.withStore_uninit hi _⟩
  | true =>
    rw [State.withStore_init hi]
    cases hr : insertStore s.cfg s.mem h with
    | ok m => exact .inr ⟨m, rfl, rfl, rfl⟩
    | error st => exact .inl ⟨st, by rcases insertStore_error hr with rfl | rfl <;> decide, rfl⟩

/-- Settles O27: INSERT writes words of remainder fields, occupieds words and runends words alone. -/
theorem insertNeverWritesOffsetWords : Obligations.InsertNeverWritesOffsetWords := by
  intro s t h hc he j _
  rcases exec_insert_cases he with ⟨st, _, rfl⟩ | ⟨m, _, hm, rfl⟩
  · rfl
  · exact read_offWord_insertStore hc j hm

end Sys2Proof.Machine
end

section
/-! PROOF. The slot accessors as rules: what the occupancy bit, the run-end bit and the remainder of every slot are after each update of
one slot, and after the composed updates of INSERT (41_block_store.md R90 to R96, 43_filter_ops.md R132 to R136). -/

namespace Sys2Proof.Machine

/-! ### The bitmaps (R91, R92, R94) -/

theorem getLsbD_bitWord_shiftLeft (v : Bool) (b i : Nat) (hi : i < 64) : (bitWord v <<< b).getLsbD i = (decide (i = b) && v) := by
  rcases Nat.lt_trichotomy i b with h | rfl | h
  · simp [h, h.ne]
  · cases v <;> simp [bitWord, hi]
  · have h0 : i - b ≠ 0 := by omega
    cases v <;> simp [bitWord, h.ne', h0, BitVec.getLsbD_one]

theorem getLsbD_replaceBit (w : Word) (b : Nat) (v : Bool) {i : Nat} (hi : i < 64) :
    (replaceBit w b v).getLsbD i = if i = b then v else w.getLsbD i := by
  have hone : (1#64 <<< b).getLsbD i = (decide (i = b) && true) := getLsbD_bitWord_shiftLeft true b i hi
  simp only [replaceBit, BitVec.getLsbD_or, BitVec.getLsbD_and, BitVec.getLsbD_not, getLsbD_bitWord_shiftLeft v b i hi, hone]
  by_cases h : i = b <;> simp [h, hi]

/-- Two slots are one when they agree in block and place. -/
theorem slot_eq_iff (x s : Nat) : x = s ↔ x / 64 = s / 64 ∧ x % 64 = s % 64 := by omega

section bitmaps

variable {c : Config} {m : Memory}

theorem slotOcc_setOcc (hm : m.wf = true) (s : Nat) (v : Bool) (x : Nat) :
    slotOcc c (setOcc c m s v) x = if x = s then v else slotOcc c m x := by
  simp only [slotOcc, setOcc, Memory.read_write hm, occWord_inj, slot_eq_iff x s]
  by_cases hb : x / 64 = s / 64
  · simp [hb, getLsbD_replaceBit _ _ _ (Nat.mod_lt x (by decide))]
  · simp [hb]

theorem slotRun_setRun (hm : m.wf = true) (s : Nat) (v : Bool) (x : Nat) :
    slotRun c (setRun c m s v) x = if x = s then v else slotRun c m x := by
  simp only [slotRun, setRun, Memory.read_write hm, runWord_inj, slot_eq_iff x s]
  by_cases hb : x / 64 = s / 64
  · simp [hb, getLsbD_replaceBit _ _ _ (Nat.mod_lt x (by decide))]
  · simp [hb]

@[simp] theorem slotRun_setOcc (s : Nat) (v : Bool) (x : Nat) : slotRun c (setOcc c m s v) x = slotRun c m x := by
  rw [slotRun, read_setOcc_of_ne v occWord_ne_runWord.symm, slotRun]

@[simp] theorem slotOcc_setRun (s : Nat) (v : Bool) (x : Nat) : slotOcc c (setRun c m s v) x = slotOcc c m x := by
  rw [slotOcc, read_setRun_of_ne v occWord_ne_runWord, slotOcc]

theorem slotOcc_remWrite (hc : c.Legal) (s : Nat) (v : Word) (x : Nat) : slotOcc c (remWrite c m s v) x = slotOcc c m x := by
  rw [slotOcc, occWord, read_remWrite_head hc v (by decide), slotOcc, occWord]

theorem slotRun_remWrite (hc : c.Legal) (s : Nat) (v : Word) (x : Nat) : slotRun c (remWrite c m s v) x = slotRun c m x := by
  rw [slotRun, runWord, read_remWrite_head hc v (by decide), slotRun, runWord]

end bitmaps

/-! ### The lanes (20_memory.md R44, R45; R93, R95) -/

/-- Bit p of the remainder field of block j, `F(j)` (20_memory.md R44). -/
def fieldBit (c : Config) (m : Memory) (j p : Nat) : Bool := (m.read (remWord c j (p / 64))).getLsbD (p % 64)

theorem getLsbD_rmask {c : Config} (hc : c.Legal) (i : Nat) : c.rmask.getLsbD i = decide (i < c.r) := by
  obtain ⟨_, _, hp⟩ := hc
  rw [Config.rmask, BitVec.getLsbD_ofNat, Nat.testBit_two_pow_sub_one]
  by_cases h : i < c.r <;> simp [h]
  omega

theorem rmask_toNat_lt (c : Config) : c.rmask.toNat < 2 ^ c.r := by
  rw [Config.rmask, BitVec.toNat_ofNat]
  exact lt_of_le_of_lt (Nat.mod_le _ _) (Nat.sub_lt (Nat.two_pow_pos _) (by decide))

theorem and_rmask_lt (c : Config) (w : Word) : (w &&& c.rmask).toNat < 2 ^ c.r := by
  rw [BitVec.toNat_and]
  exact lt_of_le_of_lt Nat.and_le_right (rmask_toNat_lt c)

theorem slotRem_lt (c : Config) (m : Memory) (s : Nat) : (slotRem c m s).toNat < 2 ^ c.r := and_rmask_lt c _

theorem hashRem_lt (c : Config) (h : Word) : (hashRem c h).toNat < 2 ^ c.r := and_rmask_lt c h

theorem getLsbD_of_lt_two_pow {v : Word} {n i : Nat} (hv : v.toNat < 2 ^ n) (hi : n ≤ i) : v.getLsbD i = false :=
  Nat.testBit_lt_two_pow (lt_of_lt_of_le hv (Nat.pow_le_pow_right (by decide) hi))

/-- The first bit of a lane within its field. -/
theorem lane_start (c : Config) (s : Nat) : s % 64 * c.r = 64 * laneWord c s + laneShift c s := by
  rw [laneWord, laneShift]
  omega

/-- A lane is its r bits of the remainder field. -/
theorem getLsbD_slotRem {c : Config} (hc : c.Legal) (m : Memory) (s i : Nat) :
    (slotRem c m s).getLsbD i = (decide (i < c.r) && fieldBit c m (s / 64) (s % 64 * c.r + i)) := by
  by_cases hi : i < c.r
  · have ho : laneShift c s < 64 := Nat.mod_lt _ (by decide)
    have hr : i < 64 := by have := hc.2.2; omega
    simp only [slotRem, BitVec.getLsbD_and, BitVec.getLsbD_or, getLsbD_rmask hc, hi, decide_true, Bool.and_true, Bool.true_and,
      BitVec.getLsbD_ushiftRight, fieldBit, lane_start, laneAddr]
    by_cases hlo : laneShift c s + i < 64
    · have hw : (64 * laneWord c s + laneShift c s + i) / 64 = laneWord c s := by omega
      have hb : (64 * laneWord c s + laneShift c s + i) % 64 = laneShift c s + i := by omega
      rw [hw, hb]
      split
      · simp only [BitVec.getLsbD_shiftLeft, show i < 64 - laneShift c s by omega, decide_true, Bool.not_true, Bool.and_false,
          Bool.false_and, Bool.or_false]
      · simp
    · have hw : (64 * laneWord c s + laneShift c s + i) / 64 = laneWord c s + 1 := by omega
      have hb : (64 * laneWord c s + laneShift c s + i) % 64 = i - (64 - laneShift c s) := by omega
      have hst : straddles c s = true := decide_eq_true (by omega)
      rw [hw, hb, if_pos hst, BitVec.getLsbD_of_ge _ _ (by omega), Bool.false_or, BitVec.getLsbD_shiftLeft]
      simp [hr, show ¬ i < 64 - laneShift c s by omega, remWord, Nat.add_assoc]
  · simp [slotRem, getLsbD_rmask hc, hi]

/-- The lower word of a lane after the lane is written. -/
theorem getLsbD_lane_low {c : Config} (hc : c.Legal) (w v : Word) (hv : v.toNat < 2 ^ c.r) (o : Nat) {b : Nat} (hb : b < 64) :
    ((w &&& ~~~(c.rmask <<< o)) ||| (v <<< o)).getLsbD b = if o ≤ b ∧ b < o + c.r then v.getLsbD (b - o) else w.getLsbD b := by
  simp only [BitVec.getLsbD_or, BitVec.getLsbD_and, BitVec.getLsbD_not, BitVec.getLsbD_shiftLeft, getLsbD_rmask hc, hb, decide_true,
    Bool.true_and]
  by_cases hlt : b < o
  · simp [hlt, show ¬ o ≤ b by omega]
  · by_cases hin : b < o + c.r
    · simp [hlt, hin, show o ≤ b by omega, show b - o < c.r by omega]
    · simp [hlt, hin, show ¬ b - o < c.r by omega, getLsbD_of_lt_two_pow hv (show c.r ≤ b - o by omega)]

/-- The upper word of a straddling lane after the lane is written; `sh` of the lane's bits are in the lower word. -/
theorem getLsbD_lane_high {c : Config} (hc : c.Legal) (w v : Word) (hv : v.toNat < 2 ^ c.r) (sh : Nat) {b : Nat} (hb : b < 64) :
    ((w &&& ~~~(c.rmask >>> sh)) ||| (v >>> sh)).getLsbD b = if sh + b < c.r then v.getLsbD (sh + b) else w.getLsbD b := by
  simp only [BitVec.getLsbD_or, BitVec.getLsbD_and, BitVec.getLsbD_not, BitVec.getLsbD_ushiftRight, getLsbD_rmask hc, hb, decide_true,
    Bool.true_and]
  by_cases hin : sh + b < c.r
  · simp [hin]
  · simp [hin, getLsbD_of_lt_two_pow hv (show c.r ≤ sh + b by omega)]

/-- The word a lane begins in after the lane is written. -/
theorem read_remWrite_low {c : Config} {m : Memory} (hm : m.wf = true) (s : Nat) (v : Word) :
    (remWrite c m s v).read (laneAddr c s) =
      (m.read (laneAddr c s) &&& ~~~(c.rmask <<< laneShift c s)) ||| (v <<< laneShift c s) := by
  simp only [remWrite]
  split
  · rw [Memory.read_write_ne _ _ (by omega), Memory.read_write_same hm]
  · rw [Memory.read_write_same hm]

/-- The word a straddling lane ends in after the lane is written. -/
theorem read_remWrite_high {c : Config} {m : Memory} (hm : m.wf = true) {s : Nat} (hst : straddles c s = true) (v : Word) :
    (remWrite c m s v).read (laneAddr c s + 1) =
      (m.read (laneAddr c s + 1) &&& ~~~(c.rmask >>> (64 - laneShift c s))) ||| (v >>> (64 - laneShift c s)) := by
  simp only [remWrite, if_pos hst]
  rw [Memory.read_write_same (Memory.write_wf hm _ _), Memory.read_write_ne _ _ (by omega)]

/-- The pack path on the remainder field: the bits of the lane are the value's, every other bit is as it was (R95). -/
theorem fieldBit_remWrite {c : Config} {m : Memory} (hc : c.Legal) (hm : m.wf = true) (s : Nat) {v : Word} (hv : v.toNat < 2 ^ c.r)
    (j : Nat) {p : Nat} (hp : p < 64 * c.r) :
    fieldBit c (remWrite c m s v) j p =
      if j = s / 64 ∧ s % 64 * c.r ≤ p ∧ p < s % 64 * c.r + c.r then v.getLsbD (p - s % 64 * c.r) else fieldBit c m j p := by
  have hlane : laneAddr c s = remWord c (s / 64) (laneWord c s) := rfl
  have hnext : laneAddr c s + 1 = remWord c (s / 64) (laneWord c s + 1) := rfl
  have hb : p % 64 < 64 := Nat.mod_lt _ (by decide)
  have ho : laneShift c s < 64 := Nat.mod_lt _ (by decide)
  have hst_iff : straddles c s = true ↔ laneShift c s + c.r > 64 := decide_eq_true_iff
  simp only [fieldBit, lane_start]
  by_cases hlow : j = s / 64 ∧ p / 64 = laneWord c s
  · obtain ⟨rfl, hw⟩ := hlow
    rw [hw, ← hlane, read_remWrite_low hm, getLsbD_lane_low hc _ _ hv _ hb]
    split
    · rw [if_pos (by omega)]; congr 1; omega
    · rw [if_neg (by omega)]
  by_cases hhigh : j = s / 64 ∧ p / 64 = laneWord c s + 1 ∧ straddles c s = true
  · obtain ⟨rfl, hw, hst⟩ := hhigh
    rw [hw, ← hnext, read_remWrite_high hm hst, getLsbD_lane_high hc _ _ hv _ hb]
    split
    · rw [if_pos (by omega)]; congr 1; omega
    · rw [if_neg (by omega)]
  have hout : ¬ (j = s / 64 ∧ 64 * laneWord c s + laneShift c s ≤ p ∧ p < 64 * laneWord c s + laneShift c s + c.r) := by
    rintro ⟨hj, hle, hlt⟩
    by_cases hw : p / 64 = laneWord c s
    · exact hlow ⟨hj, hw⟩
    · have hr : c.r ≤ 64 := by have := hc.2.2; omega
      exact hhigh ⟨hj, by omega, hst_iff.mpr (by omega)⟩
  rw [if_neg hout, read_remWrite_of_ne]
  · rwa [hlane, Ne, remWord_inj (by omega) (laneWord_lt hc s)]
  · intro hst
    rw [hnext, Ne, remWord_inj (by omega) (laneWord_succ_lt hst)]
    exact fun ⟨hj, hw'⟩ => hhigh ⟨hj, hw', hst⟩

/-- Bits of lanes at different places of a field are different bits. -/
theorem lane_bit_mem_iff {r b b' i : Nat} (hi : i < r) : (b' * r ≤ b * r + i ∧ b * r + i < b' * r + r) ↔ b = b' := by
  refine ⟨fun ⟨h1, h2⟩ => ?_, fun h => by subst h; omega⟩
  have hr : 0 < r := by omega
  have hle : b' ≤ b := by
    by_contra hlt
    have := Nat.mul_le_mul_right r (show b + 1 ≤ b' by omega)
    rw [Nat.add_mul] at this
    omega
  have hge : b ≤ b' := by
    by_contra hlt
    have := Nat.mul_le_mul_right r (show b' + 1 ≤ b by omega)
    rw [Nat.add_mul] at this
    omega
  omega

section lanes

variable {c : Config} {m : Memory}

/-- A remainder that is written is read back, and no other lane changes (R95). -/
theorem slotRem_remWrite (hc : c.Legal) (hm : m.wf = true) (s : Nat) {v : Word} (hv : v.toNat < 2 ^ c.r) (x : Nat) :
    slotRem c (remWrite c m s v) x = if x = s then v else slotRem c m x := by
  refine BitVec.eq_of_getLsbD_eq fun i _ => ?_
  by_cases hi : i < c.r
  · have hp : x % 64 * c.r + i < 64 * c.r := by have := lane_end_le c x; omega
    simp only [getLsbD_slotRem hc, fieldBit_remWrite hc hm s hv _ hp, lane_bit_mem_iff hi, ← slot_eq_iff]
    by_cases hx : x = s
    · subst hx; simp [hi]
    · simp [hx, hi, getLsbD_slotRem hc]
  · rw [getLsbD_of_lt_two_pow (slotRem_lt _ _ _) (by omega)]
    split
    · rw [getLsbD_of_lt_two_pow hv (by omega)]
    · rw [getLsbD_of_lt_two_pow (slotRem_lt _ _ _) (by omega)]

/-- Writing a word of a block's head changes no lane. -/
theorem slotRem_write_head (hc : c.Legal) {j k : Nat} (hk : k < 3) (v : Word) (x : Nat) :
    slotRem c (m.write (j * c.bw + k) v) x = slotRem c m x := by
  have hlo : (m.write (j * c.bw + k) v).read (laneAddr c x) = m.read (laneAddr c x) :=
    Memory.read_write_ne _ _ (headWord_ne_remWord hk (laneWord_lt hc x)).symm
  simp only [slotRem, hlo]
  split
  · next hst =>
    have hhi : (m.write (j * c.bw + k) v).read (laneAddr c x + 1) = m.read (laneAddr c x + 1) :=
      Memory.read_write_ne _ _ (headWord_ne_remWord (w := laneWord c x + 1) hk (laneWord_succ_lt hst)).symm
    rw [hhi]
  · rfl

theorem slotRem_setOcc (hc : c.Legal) (s : Nat) (v : Bool) (x : Nat) : slotRem c (setOcc c m s v) x = slotRem c m x :=
  slotRem_write_head hc (by decide) _ x

theorem slotRem_setRun (hc : c.Legal) (s : Nat) (v : Bool) (x : Nat) : slotRem c (setRun c m s v) x = slotRem c m x :=
  slotRem_write_head hc (by decide) _ x

end lanes

/-! ### The shift (R96, R135) -/

/-- Whatever `copySlot` copies from the slot below, `shiftRight` moves up one slot at each of its n slots. -/
theorem shiftRight_of_copySlot {c : Config} {α : Type} {f : Memory → Nat → α}
    (hf : ∀ (m : Memory) (k x : Nat), m.wf = true → f (copySlot c m k) x = if x = k then f m (k - 1) else f m x)
    {n k : Nat} {m : Memory} (hm : m.wf = true) (hn : n ≤ k) (x : Nat) :
    f (shiftRight c n k m) x = if k < x + n ∧ x ≤ k then f m (x - 1) else f m x := by
  induction n generalizing k m with
  | zero => rw [shiftRight, if_neg (by omega)]
  | succ n ih =>
    rw [shiftRight, ih (copySlot_wf hm k) (by omega), hf m k _ hm, hf m k _ hm]
    by_cases hx : x = k
    · subst hx
      rw [if_neg (by omega), if_pos rfl, if_pos (by omega)]
    · by_cases hin : k < x + (n + 1) ∧ x ≤ k
      · rw [if_pos (by omega), if_neg (by omega), if_pos hin]
      · rw [if_neg (by omega), if_neg hx, if_neg hin]

section shift

variable {c : Config} {m : Memory} (hc : c.Legal)

include hc

theorem slotOcc_shiftRight (n k : Nat) (m : Memory) (x : Nat) : slotOcc c (shiftRight c n k m) x = slotOcc c m x := by
  induction n generalizing k m with
  | zero => rfl
  | succ n ih => rw [shiftRight, ih, copySlot, slotOcc_setRun, slotOcc_remWrite hc]

theorem slotRem_copySlot (m : Memory) (k x : Nat) (hm : m.wf = true) :
    slotRem c (copySlot c m k) x = if x = k then slotRem c m (k - 1) else slotRem c m x := by
  rw [copySlot, slotRem_setRun hc, slotRem_remWrite hc hm _ (slotRem_lt _ _ _)]

theorem slotRun_copySlot (m : Memory) (k x : Nat) (hm : m.wf = true) :
    slotRun c (copySlot c m k) x = if x = k then slotRun c m (k - 1) else slotRun c m x := by
  rw [copySlot, slotRun_setRun (remWrite_wf hm _ _), slotRun_remWrite hc]

/-! ### INSERT on the slots (R132 to R136) -/

theorem slotOcc_insertEmptyHome (hm : m.wf = true) (h0 : Nat) (h1 : Word) (x : Nat) :
    slotOcc c (insertEmptyHome c m h0 h1) x = (decide (x = h0) || slotOcc c m x) := by
  rw [insertEmptyHome, slotOcc_setOcc (setRun_wf (remWrite_wf hm _ _) _ _), slotOcc_setRun, slotOcc_remWrite hc]
  by_cases h : x = h0 <;> simp [h]

theorem slotRun_insertEmptyHome (hm : m.wf = true) (h0 : Nat) (h1 : Word) (x : Nat) :
    slotRun c (insertEmptyHome c m h0 h1) x = (decide (x = h0) || slotRun c m x) := by
  rw [insertEmptyHome, slotRun_setOcc, slotRun_setRun (remWrite_wf hm _ _), slotRun_remWrite hc]
  by_cases h : x = h0 <;> simp [h]

theorem slotRem_insertEmptyHome (hm : m.wf = true) (h0 : Nat) {h1 : Word} (hv : h1.toNat < 2 ^ c.r) (x : Nat) :
    slotRem c (insertEmptyHome c m h0 h1) x = if x = h0 then h1 else slotRem c m x := by
  rw [insertEmptyHome, slotRem_setOcc hc, slotRem_setRun hc, slotRem_remWrite hc hm _ hv]

section insertAfter

variable (hm : m.wf = true) (h0 : Nat) {e n : Nat}

include hm

theorem slotOcc_insertAfter (h1 : Word) (x : Nat) :
    slotOcc c (insertAfter c m h0 h1 e n) x = (decide (x = h0) || slotOcc c m x) := by
  have hm5 := remWrite_wf (c := c) (shiftRight_wf (c := c) (n - (e + 1)) n m hm) (e + 1) h1
  have hocc : slotOcc c (remWrite c (shiftRight c (n - (e + 1)) n m) (e + 1) h1) x = slotOcc c m x := by
    rw [slotOcc_remWrite hc, slotOcc_shiftRight hc]
  simp only [insertAfter]
  split
  · rw [slotOcc_setOcc (setRun_wf (setRun_wf hm5 _ _) _ _), slotOcc_setRun, slotOcc_setRun, hocc]
    by_cases h : x = h0 <;> simp [h]
  · rw [slotOcc_setOcc (setRun_wf hm5 _ _), slotOcc_setRun, hocc]
    by_cases h : x = h0 <;> simp [h]

theorem slotRun_insertAfter (h1 : Word) (hn : e + 1 ≤ n) (x : Nat) :
    slotRun c (insertAfter c m h0 h1 e n) x =
      if x = e + 1 then true
      else if e + 1 < x ∧ x ≤ n then slotRun c m (x - 1)
      else if x = e ∧ slotOcc c m h0 = true then false else slotRun c m x := by
  have hm5 := remWrite_wf (c := c) (shiftRight_wf (c := c) (n - (e + 1)) n m hm) (e + 1) h1
  have hrun : slotRun c (remWrite c (shiftRight c (n - (e + 1)) n m) (e + 1) h1) x =
      if e + 1 < x ∧ x ≤ n then slotRun c m (x - 1) else slotRun c m x := by
    rw [slotRun_remWrite hc, shiftRight_of_copySlot (f := slotRun c) (slotRun_copySlot hc) hm (by omega)]
    simp only [show n < x + (n - (e + 1)) ↔ e + 1 < x by omega]
  simp only [insertAfter]
  by_cases hocc : slotOcc c m h0 = true
  · rw [if_pos hocc, slotRun_setOcc, slotRun_setRun (setRun_wf hm5 _ _), slotRun_setRun hm5, hrun]
    by_cases hx : x = e
    · simp [hx, hocc]
    · simp [hx]
  · rw [if_neg hocc, slotRun_setOcc, slotRun_setRun hm5, hrun]
    simp [hocc]

theorem slotRem_insertAfter {h1 : Word} (hv : h1.toNat < 2 ^ c.r) (hn : e + 1 ≤ n) (x : Nat) :
    slotRem c (insertAfter c m h0 h1 e n) x =
      if x = e + 1 then h1 else if e + 1 < x ∧ x ≤ n then slotRem c m (x - 1) else slotRem c m x := by
  have hrem : slotRem c (remWrite c (shiftRight c (n - (e + 1)) n m) (e + 1) h1) x =
      if x = e + 1 then h1 else if e + 1 < x ∧ x ≤ n then slotRem c m (x - 1) else slotRem c m x := by
    rw [slotRem_remWrite hc (shiftRight_wf _ _ _ hm) _ hv,
      shiftRight_of_copySlot (f := slotRem c) (slotRem_copySlot hc) hm (by omega)]
    simp only [show n < x + (n - (e + 1)) ↔ e + 1 < x by omega]
  simp only [insertAfter]
  rw [slotRem_setOcc hc, slotRem_setRun hc]
  split
  · rw [slotRem_setRun hc, hrem]
  · exact hrem

end insertAfter

end shift

end Sys2Proof.Machine
end

section
/-! PROOF. Marks counted slot by slot, and the navigator's questions told by these counts: Rank and Select on a word, GRank, GSelect, the
run-end of the largest home at or below a slot, and the first available slot (40_bit_primitives.md, 42_run_navigator.md). -/

namespace Sys2Proof.Machine

/-! ### Counting marks -/

/-- The number of marked places below s. -/
def countBelow (p : Nat → Bool) (s : Nat) : Nat := Nat.count (fun i => p i = true) s

section count

variable {p q : Nat → Bool} {a b k s : Nat}

theorem countP_range_eq_countBelow (p : Nat → Bool) (s : Nat) : (List.range s).countP p = countBelow p s := by
  simp [countBelow, Nat.count]

@[simp] theorem countBelow_zero (p : Nat → Bool) : countBelow p 0 = 0 := Nat.count_zero _

theorem countBelow_succ (p : Nat → Bool) (s : Nat) : countBelow p (s + 1) = countBelow p s + if p s = true then 1 else 0 :=
  Nat.count_succ _ _

theorem countBelow_succ_of_true (h : p s = true) : countBelow p (s + 1) = countBelow p s + 1 := by simp [countBelow_succ, h]

theorem countBelow_succ_of_false (h : p s = false) : countBelow p (s + 1) = countBelow p s := by simp [countBelow_succ, h]

theorem countBelow_add (p : Nat → Bool) (a b : Nat) : countBelow p (a + b) = countBelow p a + countBelow (fun i => p (a + i)) b :=
  Nat.count_add _ _ _

theorem countBelow_mono (h : a ≤ b) : countBelow p a ≤ countBelow p b := Nat.count_monotone _ h

theorem countBelow_lt (ha : p a = true) (h : a < b) : countBelow p a < countBelow p b := Nat.count_strict_mono ha h

theorem lt_of_countBelow_lt (h : countBelow p a < countBelow p b) : a < b := Nat.lt_of_count_lt_count h

theorem countBelow_inj (ha : p a = true) (hb : p b = true) (h : countBelow p a = countBelow p b) : a = b :=
  Nat.count_injective ha hb h

theorem countBelow_congr (h : ∀ x, x < s → p x = q x) : countBelow p s = countBelow q s := by
  rw [← countP_range_eq_countBelow, ← countP_range_eq_countBelow]
  exact List.countP_congr fun x hx => by rw [h x (List.mem_range.mp hx)]

/-- No mark from a up to b adds nothing to the count. -/
theorem countBelow_eq_of_unmarked (hab : a ≤ b) (h : ∀ x, a ≤ x → x < b → p x = false) : countBelow p b = countBelow p a := by
  induction b, hab using Nat.le_induction with
  | base => rfl
  | succ b hab ih =>
    rw [countBelow_succ_of_false (h b hab (by omega)), ih fun x h1 h2 => h x h1 (by omega)]

/-- The mark numbered k from 0, where there are more than k. -/
theorem exists_mark_of_lt_countBelow (h : k < countBelow p s) : ∃ x, x < s ∧ p x = true ∧ countBelow p x = k := by
  induction s with
  | zero => simp at h
  | succ s ih =>
    by_cases hk : k < countBelow p s
    · obtain ⟨x, hx, hp, hc⟩ := ih hk
      exact ⟨x, by omega, hp, hc⟩
    · rw [countBelow_succ] at h
      by_cases hps : p s = true
      · rw [if_pos hps] at h
        exact ⟨s, by omega, hps, by omega⟩
      · rw [if_neg hps] at h
        omega

theorem length_filter_range (p : Nat → Bool) (s : Nat) : ((List.range s).filter p).length = countBelow p s := by
  rw [← List.countP_eq_length_filter, countP_range_eq_countBelow]

/-- The marked places as a rising list: place x stands at the index that counts the marks below it. -/
theorem getElem?_filter_range_eq_some_iff {x : Nat} :
    ((List.range s).filter p)[k]? = some x ↔ x < s ∧ p x = true ∧ countBelow p x = k := by
  induction s with
  | zero => simp
  | succ s ih =>
    rw [List.range_succ, List.filter_append, List.getElem?_append, length_filter_range]
    by_cases hk : k < countBelow p s
    · rw [if_pos hk, ih]
      refine ⟨fun ⟨h1, h2⟩ => ⟨by omega, h2⟩, fun ⟨h1, h2, h3⟩ => ⟨?_, h2, h3⟩⟩
      exact lt_of_countBelow_lt (h3 ▸ hk)
    · have hx : x < s + 1 ∧ p x = true ∧ countBelow p x = k → x = s := fun ⟨h1, h2, h3⟩ => by
        by_contra hne
        exact hk (h3 ▸ countBelow_lt h2 (by omega))
      rw [if_neg hk]
      by_cases hps : p s = true
      · rw [List.filter_cons_of_pos hps, List.filter_nil, List.getElem?_singleton]
        split
        · exact ⟨fun h => Option.some.inj h ▸ ⟨by omega, hps, by omega⟩, fun h => by rw [hx h]⟩
        · exact ⟨fun h => by simp at h, fun h => by obtain rfl := hx h; omega⟩
      · rw [List.filter_cons_of_neg hps]
        exact ⟨fun h => by simp at h, fun h => absurd (hx h ▸ h.2.1) hps⟩

end count

/-! ### Rank and Select on a word (R80, R82) -/

theorem popcount_eq_countBelow (w : Word) : popcount w = countBelow w.getLsbD 64 :=
  (popcount_eq_countP w).trans (countP_range_eq_countBelow _ _)

theorem rank_eq_countBelow (w : Word) {i : Nat} (hi : i < 64) : rank w i = countBelow w.getLsbD (i + 1) := by
  have hmask : ∀ j, (w &&& BitVec.ofNat 64 (2 ^ (i + 1) - 1)).getLsbD j = (w.getLsbD j && decide (j < i + 1)) := fun j => by
    rw [BitVec.getLsbD_and, BitVec.getLsbD_ofNat, Nat.testBit_two_pow_sub_one]
    by_cases hj : j < 64
    · simp [hj]
    · simp [BitVec.getLsbD_of_ge _ _ (Nat.le_of_not_lt hj)]
  rw [rank, popcount_eq_countBelow, countBelow_eq_of_unmarked (a := i + 1) (by omega)]
  · exact countBelow_congr fun x hx => by rw [hmask]; simp [hx]
  · exact fun x hx _ => by rw [hmask]; simp [show ¬ x < i + 1 by omega]

/-- Select finds the k-th set bit, for k from 1 to the popcount. -/
theorem select_spec {w : Word} {k : Nat} (h1 : 1 ≤ k) (hk : k ≤ popcount w) :
    select w k < 64 ∧ w.getLsbD (select w k) = true ∧ countBelow w.getLsbD (select w k) + 1 = k := by
  unfold select
  cases hf : (List.range 64).find? fun p => w.getLsbD p && decide (rank w p = k) with
  | none =>
    obtain ⟨x, hx, hw, hc⟩ := exists_mark_of_lt_countBelow (p := w.getLsbD) (k := k - 1) (s := 64)
      (by rw [← popcount_eq_countBelow]; omega)
    refine absurd (List.find?_eq_none.mp hf x (List.mem_range.mpr hx)) (not_not.mpr ?_)
    simp only [hw, Bool.true_and, decide_eq_true_eq]
    rw [rank_eq_countBelow w hx, countBelow_succ_of_true hw]
    omega
  | some x =>
    have hx : x < 64 := List.mem_range.mp (List.mem_of_find?_eq_some hf)
    have hp := List.find?_some hf
    simp only [Bool.and_eq_true, decide_eq_true_eq] at hp
    obtain ⟨hw, hr⟩ := hp
    rw [rank_eq_countBelow w hx, countBelow_succ_of_true hw] at hr
    exact ⟨hx, hw, hr⟩

/-! ### GRank and GSelect (R110, R111) -/

section navigator

variable {c : Config} {m : Memory}

theorem slotOcc_block (c : Config) (m : Memory) (j : Nat) {i : Nat} (hi : i < 64) :
    slotOcc c m (64 * j + i) = (m.read (occWord c j)).getLsbD i := by
  rw [slotOcc, show (64 * j + i) / 64 = j by omega, show (64 * j + i) % 64 = i by omega]

theorem slotRun_block (c : Config) (m : Memory) (j : Nat) {i : Nat} (hi : i < 64) :
    slotRun c m (64 * j + i) = (m.read (runWord c j)).getLsbD i := by
  rw [slotRun, show (64 * j + i) / 64 = j by omega, show (64 * j + i) % 64 = i by omega]

/-- The homes below a place of block j: those of the lower blocks and those of the block's own word. -/
theorem countBelow_slotOcc_block (c : Config) (m : Memory) (j : Nat) {i : Nat} (hi : i ≤ 64) :
    countBelow (slotOcc c m) (64 * j + i) = countBelow (slotOcc c m) (64 * j) + countBelow (m.read (occWord c j)).getLsbD i := by
  rw [countBelow_add, countBelow_congr fun x hx => slotOcc_block c m j (by omega)]

theorem countBelow_slotRun_block (c : Config) (m : Memory) (j : Nat) {i : Nat} (hi : i ≤ 64) :
    countBelow (slotRun c m) (64 * j + i) = countBelow (slotRun c m) (64 * j) + countBelow (m.read (runWord c j)).getLsbD i := by
  rw [countBelow_add, countBelow_congr fun x hx => slotRun_block c m j (by omega)]

theorem homesUpTo_eq_countBelow (c : Config) (m : Memory) (s : Nat) : homesUpTo c m s = countBelow (slotOcc c m) (s + 1) :=
  countP_range_eq_countBelow _ _

theorem occBefore_eq_countBelow (c : Config) (m : Memory) (j : Nat) : occBefore c m j = countBelow (slotOcc c m) (64 * j) := by
  induction j with
  | zero => simp [occBefore]
  | succ j ih => rw [occBefore, ih, popcount_eq_countBelow, Nat.mul_succ, countBelow_slotOcc_block c m j (le_refl 64)]

/-- GRank counts the homes at or below the slot (R110). -/
theorem gRank_eq_homesUpTo (c : Config) (m : Memory) (s : Nat) : gRank c m s = homesUpTo c m s := by
  have hs : s + 1 = 64 * (s / 64) + (s % 64 + 1) := by omega
  rw [gRank, occBefore_eq_countBelow, rank_eq_countBelow _ (Nat.mod_lt s (by decide)), homesUpTo_eq_countBelow, hs,
    countBelow_slotOcc_block c m _ (by omega)]

/-- The t-th run-end is the run-end with t - 1 run-ends below it (R111). -/
theorem runEndNo_eq_some_iff {t e : Nat} (ht : t ≠ 0) :
    runEndNo c m t = some e ↔ e < c.nslots ∧ slotRun c m e = true ∧ countBelow (slotRun c m) e + 1 = t := by
  refine (getElem?_filter_range_eq_some_iff (p := slotRun c m)).trans (and_congr_right fun _ => and_congr_right fun _ => ?_)
  omega

theorem runEndNo_eq_none_iff {t : Nat} (ht : t ≠ 0) : runEndNo c m t = none ↔ countBelow (slotRun c m) c.nslots < t := by
  have hlen : (runEnds c m).length = countBelow (slotRun c m) c.nslots := length_filter_range _ _
  rw [runEndNo, List.getElem?_eq_none_iff, hlen]
  omega

/-- The scan of GSelect over n blocks from block j on: it stops at the first slot of them with enough run-ends up to it, or finds that
they have too few. -/
theorem gSelectFrom_spec (n j t : Nat) (ht : 1 ≤ t) :
    (gSelectFrom c m n j t < 64 * (j + n) ∧ slotRun c m (gSelectFrom c m n j t) = true ∧
      countBelow (slotRun c m) (gSelectFrom c m n j t) + 1 = countBelow (slotRun c m) (64 * j) + t) ∨
    (gSelectFrom c m n j t = c.nslots ∧ countBelow (slotRun c m) (64 * (j + n)) < countBelow (slotRun c m) (64 * j) + t) := by
  induction n generalizing j t with
  | zero => exact .inr ⟨rfl, Nat.lt_add_of_pos_right ht⟩
  | succ n ih =>
    have hblock : countBelow (slotRun c m) (64 * (j + 1)) =
        countBelow (slotRun c m) (64 * j) + popcount (m.read (runWord c j)) := by
      rw [popcount_eq_countBelow, Nat.mul_succ, countBelow_slotRun_block c m j (le_refl 64)]
    simp only [gSelectFrom]
    split
    · next hle =>
      obtain ⟨hlt, hbit, hcount⟩ := select_spec ht hle
      refine .inl ⟨by omega, (slotRun_block c m j hlt).trans hbit, ?_⟩
      rw [countBelow_slotRun_block c m j (by omega)]
      omega
    · have hnext := ih (j + 1) (t - popcount (m.read (runWord c j))) (by omega)
      rw [show j + 1 + n = j + (n + 1) by omega] at hnext
      exact hnext.imp (fun ⟨h1, h2, h3⟩ => ⟨h1, h2, by omega⟩) fun ⟨h1, h2⟩ => ⟨h1, by omega⟩

/-- GSelect answers the t-th run-end, or NSLOTS where there are fewer (R111). -/
theorem gSelect_eq_runEndNo_getD (hc : c.Legal) {t : Nat} (ht : t ≠ 0) : gSelect c m t = (runEndNo c m t).getD c.nslots := by
  have hspec := gSelectFrom_spec (c := c) (m := m) c.nblocks 0 t (by omega)
  rw [Nat.zero_add, ← nslots_eq hc, Nat.mul_zero, countBelow_zero, Nat.zero_add] at hspec
  rcases hspec with h | ⟨he, hlt⟩
  · rw [(runEndNo_eq_some_iff ht).mpr h]
    rfl
  · rw [(runEndNo_eq_none_iff ht).mpr hlt]
    exact he

/-! ### The run-end of the largest home at or below a slot (R114) -/

theorem homesUpTo_eq_zero_of_runEndAt {s : Nat} (h : runEndAt c m s = .ok none) : homesUpTo c m s = 0 := by
  rcases runEndAt_cases c m s with ⟨ht, _⟩ | ⟨_, _, h'⟩ | ⟨_, _, h'⟩
  · exact gRank_eq_homesUpTo c m s ▸ ht
  · rw [h'] at h; cases h
  · rw [h'] at h; cases h

/-- Where `runEndAt` answers a run-end e numbered t, t homes lie at or below the slot and t - 1 run-ends below e. -/
theorem runEndAt_some_spec (hc : c.Legal) {s e t : Nat} (h : runEndAt c m s = .ok (some (e, t))) :
    countBelow (slotOcc c m) (s + 1) = t ∧ e < c.nslots ∧ slotRun c m e = true ∧ countBelow (slotRun c m) e + 1 = t := by
  rcases runEndAt_cases c m s with ⟨_, h'⟩ | ⟨_, _, h'⟩ | ⟨ht, hne, h'⟩
  · rw [h'] at h; cases h
  · rw [h'] at h; cases h
  · rw [h'] at h
    simp only [Except.ok.injEq, Option.some.injEq, Prod.mk.injEq] at h
    obtain ⟨he, rfl⟩ := h
    have hsome : runEndNo c m (gRank c m s) = some e := by
      rw [gSelect_eq_runEndNo_getD hc ht] at hne he
      cases hr : runEndNo c m (gRank c m s) with
      | none => simp [hr] at hne
      | some e' => simpa [hr] using he
    exact ⟨by rw [gRank_eq_homesUpTo, homesUpTo_eq_countBelow], (runEndNo_eq_some_iff ht).mp hsome⟩

/-! ### The first available slot (R115) -/

/-- More homes lie at or below the slot than run-ends below it: the slot is in a run, where the store is well-formed (R116). -/
def InRun (o r : Nat → Bool) (x : Nat) : Prop := countBelow r x < countBelow o (x + 1)

/-- From a slot up to the run-end of the largest home at or below it, every slot is in a run. -/
theorem inRun_of_runEndAt (hc : c.Legal) {s e t x : Nat} (h : runEndAt c m s = .ok (some (e, t))) (hs : s ≤ x) (hx : x ≤ e) :
    InRun (slotOcc c m) (slotRun c m) x := by
  obtain ⟨hocc, _, _, hrun⟩ := runEndAt_some_spec hc h
  have h1 := countBelow_mono (p := slotRun c m) hx
  have h2 := countBelow_mono (p := slotOcc c m) (show s + 1 ≤ x + 1 by omega)
  unfold InRun
  omega

/-- A slot above the run-end of the largest home at or below it is in no run. -/
theorem not_inRun_of_runEndAt (hc : c.Legal) {s e t : Nat} (h : runEndAt c m s = .ok (some (e, t))) (he : e < s) :
    ¬ InRun (slotOcc c m) (slotRun c m) s := by
  obtain ⟨hocc, _, hbit, hrun⟩ := runEndAt_some_spec hc h
  have h1 := countBelow_mono (p := slotRun c m) (show e + 1 ≤ s from he)
  rw [countBelow_succ_of_true hbit] at h1
  unfold InRun
  omega

theorem not_inRun_of_runEndAt_none {s : Nat} (h : runEndAt c m s = .ok none) : ¬ InRun (slotOcc c m) (slotRun c m) s := by
  have h0 := homesUpTo_eq_zero_of_runEndAt h
  rw [homesUpTo_eq_countBelow] at h0
  unfold InRun
  omega

/-- A slot that `Fas` answers is in no run, and every slot from the query up to it is in one (R115). -/
theorem fasLoop_spec (hc : c.Legal) {fuel s n : Nat} (h : fasLoop c m fuel s = .ok n) :
    ¬ InRun (slotOcc c m) (slotRun c m) n ∧ ∀ x, s ≤ x → x < n → InRun (slotOcc c m) (slotRun c m) x := by
  induction fuel generalizing s with
  | zero => simp [fasLoop] at h
  | succ fuel ih =>
    unfold fasLoop at h
    split at h
    · simp at h
    · next hr =>
      obtain rfl := Except.ok.inj h
      exact ⟨not_inRun_of_runEndAt_none hr, fun x h1 h2 => by omega⟩
    · next e t hr =>
      split at h
      · split at h
        · simp at h
        · obtain ⟨hn, hx⟩ := ih h
          refine ⟨hn, fun x h1 h2 => ?_⟩
          by_cases hxe : x ≤ e
          · exact inRun_of_runEndAt hc hr h1 hxe
          · exact hx x (by omega) h2
      · obtain rfl := Except.ok.inj h
        exact ⟨not_inRun_of_runEndAt hc hr (by omega), fun x h1 h2 => by omega⟩

theorem fas_spec (hc : c.Legal) {s n : Nat} (h : fas c m s = .ok n) :
    ¬ InRun (slotOcc c m) (slotRun c m) n ∧ ∀ x, s ≤ x → x < n → InRun (slotOcc c m) (slotRun c m) x :=
  fasLoop_spec hc h

end navigator

end Sys2Proof.Machine
end

section
/-! PROOF. Balanced markings: homes and run-ends as two markings of the slots, told by counts. What a run is, that every home has exactly
one, and what the two ways of placing a remainder (43_filter_ops.md R133, R134 to R136) do to the runs. No store is read here. -/

namespace Sys2Proof.Machine

/-! ### Balanced markings and their runs (10_state.md R30) -/

/-- Below N there are as many run-ends as homes, and below every slot at most as many. -/
structure Balanced (o r : Nat → Bool) (N : Nat) : Prop where
  total : countBelow r N = countBelow o N
  le : ∀ s, s ≤ N → countBelow r s ≤ countBelow o s

/-- `u` is the run of its home: it ends at the run-end with the home's number and begins at the home, or right after the run-end before
where that is higher. -/
structure IsRun (o r : Nat → Bool) (N : Nat) (u : Run) : Prop where
  home : o u.home = true
  last : r u.last = true
  home_le : u.home ≤ u.first
  first_le : u.first ≤ u.last
  last_lt : u.last < N
  inner : ∀ x, u.first ≤ x → x < u.last → r x = false
  start : u.first = u.home ∨ r (u.first - 1) = true
  rank : countBelow r u.first = countBelow o u.home

section balanced

variable {o r : Nat → Bool} {N : Nat}

/-- The run-ends inside a run, its own apart, are those below it: none is added on the way. -/
theorem IsRun.countBelow_eq {u : Run} (hu : IsRun o r N u) {x : Nat} (h1 : u.first ≤ x) (h2 : x ≤ u.last) :
    countBelow r x = countBelow o u.home :=
  (countBelow_eq_of_unmarked h1 fun y hy hyx => hu.inner y hy (by omega)).trans hu.rank

/-- A home has one run. -/
theorem IsRun.unique {u v : Run} (hu : IsRun o r N u) (hv : IsRun o r N v) (h : u.home = v.home) : u = v := by
  have hlast : u.last = v.last := by
    refine countBelow_inj hu.last hv.last ?_
    rw [hu.countBelow_eq hu.first_le (le_refl _), hv.countBelow_eq hv.first_le (le_refl _), h]
  have hle : ∀ {u v : Run}, IsRun o r N u → IsRun o r N v → u.home = v.home → u.last = v.last → v.first ≤ u.first := by
    intro u v hu hv h hlast
    by_contra hlt
    have hne : v.first ≠ v.home := by have := hu.home_le; omega
    have hbit := hv.start.resolve_left hne
    rw [hu.inner _ (by omega) (by have := hv.first_le; omega)] at hbit
    cases hbit
  have hfirst := Nat.le_antisymm (hle hv hu h.symm hlast.symm) (hle hu hv h hlast)
  cases u; cases v
  exact Run.mk.injEq .. ▸ ⟨h, hfirst, hlast⟩

/-- The bound a run's first slot has from the run-ends below: the slot after the k-th run-end, or slot 0. -/
theorem exists_runBound (r : Nat → Bool) (e : Nat) :
    ∃ p, p ≤ e ∧ countBelow r p = countBelow r e ∧ (p = 0 ∨ r (p - 1) = true) := by
  cases hk : countBelow r e with
  | zero => exact ⟨0, Nat.zero_le _, countBelow_zero r, .inl rfl⟩
  | succ j =>
    obtain ⟨x, hx, hr, hc⟩ := exists_mark_of_lt_countBelow (p := r) (k := j) (s := e) (by omega)
    exact ⟨x + 1, hx, by rw [countBelow_succ_of_true hr, hc], .inr hr⟩

/-- The home, the run-end and the bound of one number make a run. -/
theorem Balanced.isRun_of_number (hb : Balanced o r N) {k h e p : Nat} (ho : o h = true) (hh : countBelow o h = k) (hr : r e = true)
    (hN : e < N) (he : countBelow r e = k) (hp : countBelow r p = k) (hbit : p = 0 ∨ r (p - 1) = true) :
    IsRun o r N ⟨h, max h p, e⟩ := by
  have hpe : p ≤ e := by
    by_contra hlt
    have := countBelow_lt hr (Nat.lt_of_not_le hlt)
    omega
  have hhe : h ≤ e := by
    by_contra hlt
    have h1 := hb.le (e + 1) hN
    have h2 := countBelow_mono (p := o) (show e + 1 ≤ h by omega)
    rw [countBelow_succ_of_true hr] at h1
    omega
  have hfirst : countBelow r (max h p) = k := by
    have h1 := countBelow_mono (p := r) (le_max_right h p)
    have h2 := countBelow_mono (p := r) (max_le hhe hpe)
    omega
  refine ⟨ho, hr, le_max_left h p, max_le hhe hpe, hN, fun x h1 h2 => ?_, ?_, hfirst.trans hh.symm⟩
  · by_contra hx
    have h3 := countBelow_lt (Bool.eq_true_of_not_eq_false hx) h2
    have h4 := countBelow_mono (p := r) h1
    simp only at h3 h4
    omega
  · rcases le_total p h with hle | hle
    · exact .inl (max_eq_left hle)
    · rcases hbit with rfl | hbit
      · exact .inl (Nat.max_zero h)
      · exact .inr (by rwa [show max h p = p from max_eq_right hle])

/-- Every number below the number of homes is the number of a home that has a run. -/
theorem Balanced.exists_isRun (hb : Balanced o r N) {k : Nat} (hk : k < countBelow o N) :
    ∃ u, IsRun o r N u ∧ countBelow o u.home = k := by
  obtain ⟨h, hN, ho, hok⟩ := exists_mark_of_lt_countBelow hk
  obtain ⟨e, heN, hr, hek⟩ := exists_mark_of_lt_countBelow (hb.total ▸ hk)
  obtain ⟨p, hpe, hpk, hp⟩ := exists_runBound r e
  exact ⟨_, hb.isRun_of_number ho hok hr heN hek (hpk.trans hek) hp, hok⟩

/-- Every home has a run. -/
theorem Balanced.exists_isRun_of_home (hb : Balanced o r N) {h : Nat} (ho : o h = true) (hN : h < N) :
    ∃ u, IsRun o r N u ∧ u.home = h := by
  obtain ⟨u, hu, hk⟩ := hb.exists_isRun (countBelow_lt ho hN)
  exact ⟨u, hu, countBelow_inj hu.home ho hk⟩

/-- A slot lies in a run exactly when it is told so by the counts. -/
theorem Balanced.inRun_iff (hb : Balanced o r N) {x : Nat} (hx : x < N) :
    InRun o r x ↔ ∃ u, IsRun o r N u ∧ u.first ≤ x ∧ x ≤ u.last := by
  constructor
  · intro h
    obtain ⟨u, hu, hk⟩ := hb.exists_isRun (k := countBelow r x) (lt_of_lt_of_le h (countBelow_mono hx))
    have hhome : u.home ≤ x := Nat.le_of_lt_succ (lt_of_countBelow_lt (p := o) (hk.trans_lt h))
    refine ⟨u, hu, ?_, ?_⟩
    · rcases hu.start with hs | hs
      · omega
      · by_contra hlt
        have h1 := countBelow_lt hs (show u.first - 1 < u.first by omega)
        have h2 := countBelow_mono (p := r) (show x ≤ u.first - 1 by omega)
        have h3 := hu.rank
        omega
    · by_contra hlt
      have h1 := countBelow_lt hu.last (show u.last < x by omega)
      have h2 := hu.countBelow_eq hu.first_le (le_refl _)
      omega
  · rintro ⟨u, hu, h1, h2⟩
    unfold InRun
    rw [hu.countBelow_eq h1 h2]
    exact countBelow_lt hu.home (by have := hu.home_le; omega)

/-- A slot in no run is no home and no run-end. -/
theorem Balanced.unmarked_of_not_inRun (hb : Balanced o r N) {x : Nat} (hx : x < N) (h : ¬ InRun o r x) :
    o x = false ∧ r x = false := by
  unfold InRun at h
  constructor <;> refine Bool.eq_false_iff.mpr fun hbit => h ?_
  · have hle := hb.le x (by omega)
    rw [countBelow_succ_of_true hbit]
    omega
  · have hle := hb.le (x + 1) hx
    rw [countBelow_succ_of_true hbit] at hle
    omega

end balanced

/-! ### Marking one more slot -/

section marked

variable {p p' : Nat → Bool} {h : Nat}

theorem countBelow_marked_of_le (hp : ∀ x, p' x = (decide (x = h) || p x)) {s : Nat} (hs : s ≤ h) :
    countBelow p' s = countBelow p s :=
  countBelow_congr fun x hx => by simp [hp, show x ≠ h by omega]

theorem countBelow_marked_of_lt (hp : ∀ x, p' x = (decide (x = h) || p x)) {s : Nat} (hs : h < s) :
    countBelow p' s + (p h).toNat = countBelow p s + 1 := by
  induction s, hs using Nat.le_induction with
  | base =>
    rw [countBelow_succ_of_true (by simp [hp]), countBelow_marked_of_le hp (le_refl h), countBelow_succ]
    cases p h <;> simp
  | succ s hs ih =>
    have hs' : p' s = p s := by simp [hp, show s ≠ h by omega]
    rw [countBelow_succ, countBelow_succ, hs']
    omega

/-- Marking an unmarked slot adds one to the counts above it. -/
theorem countBelow_marked (hp : ∀ x, p' x = (decide (x = h) || p x)) (hu : p h = false) (s : Nat) :
    countBelow p' s = countBelow p s + if h < s then 1 else 0 := by
  split
  · next hs => simpa [hu] using countBelow_marked_of_lt hp hs
  · next hs => exact countBelow_marked_of_le hp (by omega)

end marked

/-! ### What placing a remainder must do to the runs (43_filter_ops.md R138) -/

/-- Markings and remainders before and after remainder `v` is placed for home h0: h0 is a home now, every other run is there with its
remainders in order, moved up by some d, the run of h0 has one slot more, at its end and with v in it, and a slot in no run has kept its
remainder. -/
structure Appended {α : Type} (o r : Nat → Bool) (f : Nat → α) (o' r' : Nat → Bool) (f' : Nat → α) (N h0 : Nat) (v : α) : Prop where
  balanced : Balanced o' r' N
  occ : ∀ x, o' x = (decide (x = h0) || o x)
  kept : ∀ u, IsRun o r N u → u.home ≠ h0 → ∃ d, IsRun o' r' N ⟨u.home, u.first + d, u.last + d⟩ ∧
    ∀ x, u.first ≤ x → x ≤ u.last → f' (x + d) = f x
  grown : ∀ u, IsRun o r N u → u.home = h0 → IsRun o' r' N ⟨h0, u.first, u.last + 1⟩ ∧
    (∀ x, u.first ≤ x → x ≤ u.last → f' x = f x) ∧ f' (u.last + 1) = v
  begun : o h0 = false → ∃ x, IsRun o' r' N ⟨h0, x, x⟩ ∧ f' x = v
  emptied : ∀ x, x < N → ¬ InRun o' r' x → ¬ InRun o r x ∧ f' x = f x

/-! ### A remainder placed in a free home slot (43_filter_ops.md R133) -/

/-- The free slot h0 becomes a home with a run of one slot. -/
structure PlacedAtHome (o r o' r' : Nat → Bool) (N h0 : Nat) : Prop where
  occ : ∀ x, o' x = (decide (x = h0) || o x)
  run : ∀ x, r' x = (decide (x = h0) || r x)
  lt : h0 < N
  free : ¬ InRun o r h0

namespace PlacedAtHome

variable {o r o' r' : Nat → Bool} {N h0 : Nat} (hp : PlacedAtHome o r o' r' N h0) (hb : Balanced o r N)

include hp hb

theorem not_home : o h0 = false := (hb.unmarked_of_not_inRun hp.lt hp.free).1

theorem home_ne {u : Run} (hu : IsRun o r N u) : u.home ≠ h0 := fun h =>
  Bool.false_ne_true ((hp.not_home hb).symm.trans (h ▸ hu.home))

theorem countBelow_occ (s : Nat) : countBelow o' s = countBelow o s + if h0 < s then 1 else 0 :=
  countBelow_marked hp.occ (hp.not_home hb) s

theorem countBelow_run (s : Nat) : countBelow r' s = countBelow r s + if h0 < s then 1 else 0 :=
  countBelow_marked hp.run (hb.unmarked_of_not_inRun hp.lt hp.free).2 s

theorem balanced : Balanced o' r' N where
  total := by rw [hp.countBelow_occ hb, hp.countBelow_run hb, hb.total]
  le s hs := by
    rw [hp.countBelow_occ hb, hp.countBelow_run hb]
    exact Nat.add_le_add_right (hb.le s hs) _

/-- Below a free slot there are as many run-ends as homes. -/
theorem countBelow_home : countBelow r h0 = countBelow o h0 := by
  have hfree := hp.free
  have hle := hb.le h0 hp.lt.le
  unfold InRun at hfree
  rw [countBelow_succ_of_false (hp.not_home hb)] at hfree
  omega

theorem isRun_new : IsRun o' r' N ⟨h0, h0, h0⟩ where
  home := by simp [hp.occ]
  last := by simp [hp.run]
  home_le := le_refl _
  first_le := le_refl _
  last_lt := hp.lt
  inner x h1 h2 := absurd h1 (by simpa using h2)
  start := .inl rfl
  rank := by rw [hp.countBelow_occ hb, hp.countBelow_run hb, hp.countBelow_home hb]

/-- The free slot lies above or below every run. -/
theorem last_lt_or_lt_first {u : Run} (hu : IsRun o r N u) : u.last < h0 ∨ h0 < u.first := by
  by_contra h
  exact hp.free ((hb.inRun_iff hp.lt).mpr ⟨u, hu, by omega, by omega⟩)

theorem isRun_kept {u : Run} (hu : IsRun o r N u) : IsRun o' r' N u := by
  have hside := hp.last_lt_or_lt_first hb hu
  have hfirst := hu.first_le
  refine ⟨by simp [hp.occ, hu.home], by simp [hp.run, hu.last], hu.home_le, hu.first_le, hu.last_lt, fun x h1 h2 => ?_,
    hu.start.imp_right fun h => by simp [hp.run, h], ?_⟩
  · simp [hp.run, hu.inner x h1 h2, show x ≠ h0 by omega]
  · have hiff : h0 < u.first ↔ h0 < u.home := by
      refine ⟨fun h => ?_, fun h => lt_of_lt_of_le h hu.home_le⟩
      by_contra hle
      have hne := hp.home_ne hb hu
      have h1 := countBelow_lt hu.home (show u.home < h0 by omega)
      have h2 := countBelow_mono (p := r) h.le
      have h3 := hu.rank
      have h4 := hp.countBelow_home hb
      omega
    rw [hp.countBelow_occ hb, hp.countBelow_run hb, hu.rank]
    simp only [hiff]

theorem not_inRun {x : Nat} (h : ¬ InRun o' r' x) : ¬ InRun o r x ∧ x ≠ h0 := by
  unfold InRun at h ⊢
  rw [hp.countBelow_occ hb, hp.countBelow_run hb] at h
  refine ⟨fun hx => h ?_, fun hx => h ?_⟩
  · split_ifs <;> omega
  · have := hp.countBelow_home hb
    have := countBelow_mono (p := o) (Nat.le_succ h0)
    subst hx
    rw [if_neg (lt_irrefl x), if_pos (Nat.lt_succ_self x)]
    simp only [Nat.succ_eq_add_one] at this
    omega

theorem appended {α : Type} {f f' : Nat → α} {v : α} (hf : ∀ x, f' x = if x = h0 then v else f x) :
    Appended o r f o' r' f' N h0 v where
  balanced := hp.balanced hb
  occ := hp.occ
  kept u hu _ := ⟨0, hp.isRun_kept hb hu, fun x h1 h2 => by
    have := hp.last_lt_or_lt_first hb hu
    rw [Nat.add_zero, hf, if_neg (by omega)]⟩
  grown u hu h := absurd h (hp.home_ne hb hu)
  begun _ := ⟨h0, hp.isRun_new hb, by rw [hf, if_pos rfl]⟩
  emptied x _ h := by
    obtain ⟨hx, hne⟩ := hp.not_inRun hb h
    exact ⟨hx, by rw [hf, if_neg hne]⟩

end PlacedAtHome

/-! ### A remainder placed after a run-end (43_filter_ops.md R134 to R136) -/

/-- The home h0 is obstructed by runs up to e, the run-end of the largest home at or below it, and n is the first free slot from h0 up:
the slots after e up to n - 1 move up one, slot e + 1 becomes the end of h0's run, and e is its end no longer when h0 had a run. -/
structure PlacedAfter (o r o' r' : Nat → Bool) (N h0 e n : Nat) : Prop where
  occ : ∀ x, o' x = (decide (x = h0) || o x)
  run : ∀ x, r' x = if x = e + 1 then true
    else if e + 1 < x ∧ x ≤ n then r (x - 1)
    else if x = e ∧ o h0 = true then false else r x
  home_le : h0 ≤ e
  end_lt : e < n
  lt : n < N
  runEnd : r e = true
  rank : countBelow o (h0 + 1) = countBelow r e + 1
  full : ∀ x, e < x → x < n → InRun o r x
  free : ¬ InRun o r n

namespace PlacedAfter

variable {o r o' r' : Nat → Bool} {N h0 e n : Nat} (hp : PlacedAfter o r o' r' N h0 e n)

section placement

include hp

/-! The run-end bits, and the counts, after the placement. In the counts the bit at h0 is subtracted where it was set, since then no home
and no run-end is added. -/

theorem run_low {x : Nat} (hx : x < e) : r' x = r x := by
  rw [hp.run, if_neg (by omega), if_neg (by omega), if_neg (by omega)]

theorem run_end : r' e = !o h0 := by
  rw [hp.run, if_neg (by omega), if_neg (by omega)]
  cases o h0 <;> simp [hp.runEnd]

theorem run_mid {x : Nat} (h1 : e ≤ x) (h2 : x < n) : r' (x + 1) = r x := by
  rw [hp.run]
  by_cases hx : x = e
  · rw [if_pos (by omega), hx, hp.runEnd]
  · rw [if_neg (by omega), if_pos (by omega), Nat.add_sub_cancel]

theorem run_high {x : Nat} (hx : n < x) : r' x = r x := by
  have := hp.end_lt
  rw [hp.run, if_neg (by omega), if_neg (by omega), if_neg (by omega)]

theorem countBelow_occ {s : Nat} (hs : h0 < s) : countBelow o' s + (o h0).toNat = countBelow o s + 1 :=
  countBelow_marked_of_lt hp.occ hs

theorem countBelow_run_low {s : Nat} (hs : s ≤ e) : countBelow r' s = countBelow r s :=
  countBelow_congr fun _ hx => hp.run_low (by omega)

theorem countBelow_run_mid {s : Nat} (h1 : e ≤ s) (h2 : s ≤ n) : countBelow r' (s + 1) + (o h0).toNat = countBelow r s + 1 := by
  induction s, h1 using Nat.le_induction with
  | base =>
    rw [countBelow_succ, hp.countBelow_run_low (le_refl e), hp.run_end]
    cases o h0 <;> simp
  | succ s h1 ih =>
    have ih := ih (by omega)
    rw [countBelow_succ r' (s + 1), countBelow_succ r s, hp.run_mid h1 (by omega)]
    omega

/-! The run of h0, and the runs that move. -/

/-- The run-end e is the last slot of the run that obstructs h0, so where h0 is a home it ends its run. -/
theorem last_eq {u : Run} (hu : IsRun o r N u) (h : u.home = h0) : u.last = e := by
  refine countBelow_inj hu.last hp.runEnd ?_
  have h1 := hu.countBelow_eq hu.first_le (le_refl _)
  have h2 := hp.rank
  rw [countBelow_succ_of_true (h ▸ hu.home)] at h2
  rw [h1, h]
  omega

/-- The homes of the runs that end at or before e are at or below h0. -/
theorem home_le_of_last_le {u : Run} (hu : IsRun o r N u) (h : u.last ≤ e) : u.home ≤ h0 := by
  refine Nat.le_of_lt_succ (lt_of_countBelow_lt (p := o) (b := h0 + 1) ?_)
  have h1 := hu.countBelow_eq hu.first_le (le_refl _)
  have h2 := countBelow_mono (p := r) h
  have h3 := hp.rank
  omega

/-- The homes of the runs above e are above h0. -/
theorem lt_home_of_lt_first {u : Run} (hu : IsRun o r N u) (h : e < u.first) : h0 < u.home := by
  by_contra hle
  have h1 := countBelow_mono (p := r) (show e + 1 ≤ u.first from h)
  rw [countBelow_succ_of_true hp.runEnd] at h1
  have h2 := countBelow_lt hu.home (show u.home < h0 + 1 by omega)
  have h3 := hu.rank
  have h4 := hp.rank
  omega

/-- The run of h0, where it had one, has one slot more. -/
theorem isRun_grown {u : Run} (hu : IsRun o r N u) (h : u.home = h0) : IsRun o' r' N ⟨h0, u.first, u.last + 1⟩ := by
  have hlast := hp.last_eq hu h
  have hfirst := hu.first_le
  have hn := hp.end_lt
  have hlt := hp.lt
  refine ⟨by simp [hp.occ], by simp [hp.run, hlast], h ▸ hu.home_le, Nat.le_succ_of_le hfirst, by simp only; omega,
    fun x h1 h2 => ?_, ?_, ?_⟩
  · rcases Nat.lt_or_ge x e with hx | hx
    · exact (hp.run_low hx).trans (hu.inner x h1 (by omega))
    · have hxe : x = e := by simp only at h2; omega
      rw [hxe, hp.run_end, ← h, hu.home]
      rfl
  · by_cases hs : u.first = u.home
    · exact .inl (hs.trans h)
    · have := hu.home_le
      exact .inr ((hp.run_low (by simp only; omega)).trans (hu.start.resolve_left hs))
  · rw [countBelow_marked_of_le hp.occ (le_refl h0), hp.countBelow_run_low (by simp only; omega), hu.rank, h]

/-- The run of h0, where it had none, is the slot after e. -/
theorem isRun_begun (ho : o h0 = false) : IsRun o' r' N ⟨h0, e + 1, e + 1⟩ := by
  have hr := hp.countBelow_run_mid (le_refl e) hp.end_lt.le
  have h1 := hp.rank
  rw [countBelow_succ_of_false ho] at h1
  rw [ho, Bool.toNat_false, Nat.add_zero] at hr
  exact ⟨by simp [hp.occ], by simp [hp.run], Nat.le_succ_of_le hp.home_le, le_refl _, lt_of_le_of_lt hp.end_lt hp.lt,
    fun x hx hx' => absurd hx (Nat.not_le_of_lt hx'), .inr (by simp [hp.run_end, ho]),
    by rw [countBelow_marked_of_le hp.occ (le_refl h0), hr, h1]⟩

/-- A home that moves with its run has a run-end right below it: the slot below is in a run too. -/
theorem runEnd_before_moved {u : Run} (hu : IsRun o r N u) (h1 : e + 1 < u.first) (h2 : u.first ≤ n) : r (u.first - 1) = true := by
  rcases hu.start with hs | hs
  · have hfull := hp.full (u.first - 1) (by omega) (by omega)
    unfold InRun at hfull
    rw [Nat.sub_add_cancel (by omega)] at hfull
    by_contra hbit
    have hsucc := countBelow_succ_of_false (Bool.eq_false_of_not_eq_true hbit)
    rw [Nat.sub_add_cancel (by omega)] at hsucc
    rw [← hsucc, hu.rank, hs] at hfull
    exact lt_irrefl _ hfull
  · exact hs

theorem isRun_mid {u : Run} (hu : IsRun o r N u) (h1 : e < u.first) (h2 : u.last < n) :
    IsRun o' r' N ⟨u.home, u.first + 1, u.last + 1⟩ := by
  have hfirst := hu.first_le
  have hr := hp.countBelow_run_mid (s := u.first) h1.le (by omega)
  have ho := hp.countBelow_occ (hp.lt_home_of_lt_first hu h1)
  refine ⟨by simp [hp.occ, hu.home], (hp.run_mid (by omega) h2).trans hu.last, Nat.le_succ_of_le hu.home_le, Nat.succ_le_succ hfirst,
    lt_of_le_of_lt h2 hp.lt, fun x hx hx' => ?_, .inr ?_, by have := hu.rank; simp only; omega⟩
  · cases x with
    | zero => exact absurd hx (by simp)
    | succ x =>
      have hx := Nat.le_of_succ_le_succ hx
      have hx' := Nat.lt_of_succ_lt_succ hx'
      exact (hp.run_mid (by omega) (by omega)).trans (hu.inner x hx hx')
  · by_cases hf : u.first = e + 1
    · simp [hp.run, hf]
    · have hmid := hp.run_mid (x := u.first - 1) (by omega) (by omega)
      rw [Nat.sub_add_cancel (by omega)] at hmid
      exact hmid.trans (hp.runEnd_before_moved hu (by omega) (by omega))

end placement

/-! Balance, and the runs that stay. -/

variable (hb : Balanced o r N)

include hp hb

theorem countBelow_run_high {s : Nat} (hs : n < s) : countBelow r' s + (o h0).toNat = countBelow r s + 1 := by
  induction s, hs using Nat.le_induction with
  | base => rw [hp.countBelow_run_mid hp.end_lt.le (le_refl n), countBelow_succ_of_false (hb.unmarked_of_not_inRun hp.lt hp.free).2]
  | succ s hs ih =>
    rw [countBelow_succ, countBelow_succ, hp.run_high hs]
    omega

theorem balanced : Balanced o' r' N where
  total := by
    have h1 := hp.countBelow_occ (s := N) (lt_of_le_of_lt hp.home_le (hp.end_lt.trans hp.lt))
    have h2 := hp.countBelow_run_high hb hp.lt
    have h3 := hb.total
    omega
  le s hs := by
    have hle := hb.le s hs
    rcases Nat.lt_or_ge h0 s with hlt | hge
    · have hocc := hp.countBelow_occ hlt
      have hbit := Bool.toNat_le (o h0)
      rcases Nat.lt_or_ge e s with hes | hes
      · rcases Nat.lt_or_ge n s with hns | hns
        · have := hp.countBelow_run_high hb hns
          omega
        · have h1 := hp.countBelow_run_mid (s := s - 1) (by omega) (by omega)
          rw [Nat.sub_add_cancel (by omega)] at h1
          have h2 := countBelow_mono (p := r) (Nat.sub_le s 1)
          omega
      · have := hp.countBelow_run_low hes
        omega
    · rw [countBelow_marked_of_le hp.occ hge, hp.countBelow_run_low (hge.trans hp.home_le)]
      exact hle

/-- Each run ends at or before e, or lies in the slots that move up, or lies above the free slot. -/
theorem run_position {u : Run} (hu : IsRun o r N u) : u.last ≤ e ∨ (e < u.first ∧ u.last < n) ∨ n < u.first := by
  by_cases hlast : u.last ≤ e
  · exact .inl hlast
  have hfirst : e < u.first := by
    by_contra hle
    exact Bool.false_ne_true ((hu.inner e (by omega) (by omega)).symm.trans hp.runEnd)
  by_cases hn : u.last < n
  · exact .inr (.inl ⟨hfirst, hn⟩)
  · refine .inr (.inr (Nat.lt_of_not_le fun hle => hp.free ?_))
    exact (hb.inRun_iff hp.lt).mpr ⟨u, hu, hle, by omega⟩

theorem isRun_low {u : Run} (hu : IsRun o r N u) (hne : u.home ≠ h0) (h : u.last ≤ e) : IsRun o' r' N u := by
  have hfirst := hu.first_le
  refine ⟨by simp [hp.occ, hu.home], ?_, hu.home_le, hu.first_le, hu.last_lt,
    fun x h1 h2 => (hp.run_low (by omega)).trans (hu.inner x h1 h2), ?_, ?_⟩
  · rcases Nat.lt_or_eq_of_le h with hlt | heq
    · exact (hp.run_low hlt).trans hu.last
    · rw [heq, hp.run_end, Bool.not_eq_true', ← Bool.not_eq_true]
      intro ho
      obtain ⟨v, hv, hvh⟩ := hb.exists_isRun_of_home ho (lt_of_le_of_lt hp.home_le (hp.end_lt.trans hp.lt))
      refine hne ((countBelow_inj hu.home hv.home ?_).trans hvh)
      rw [← hu.countBelow_eq hu.first_le (le_refl _), ← hv.countBelow_eq hv.first_le (le_refl _), heq, hp.last_eq hv hvh]
  · by_cases hs : u.first = u.home
    · exact .inl hs
    · have := hu.home_le
      exact .inr ((hp.run_low (by omega)).trans (hu.start.resolve_left hs))
  · rw [countBelow_marked_of_le hp.occ (hp.home_le_of_last_le hu h), hp.countBelow_run_low (by omega), hu.rank]

theorem isRun_high {u : Run} (hu : IsRun o r N u) (h : n < u.first) : IsRun o' r' N u := by
  have hfirst := hu.first_le
  have hr := hp.countBelow_run_high hb h
  have ho := hp.countBelow_occ (hp.lt_home_of_lt_first hu (hp.end_lt.trans h))
  refine ⟨by simp [hp.occ, hu.home], (hp.run_high (by omega)).trans hu.last, hu.home_le, hu.first_le, hu.last_lt,
    fun x h1 h2 => (hp.run_high (by omega)).trans (hu.inner x h1 h2), hu.start.imp_right fun hs => ?_, by have := hu.rank; omega⟩
  have hne : u.first - 1 ≠ n := fun he =>
    Bool.false_ne_true ((he ▸ (hb.unmarked_of_not_inRun hp.lt hp.free).2).symm.trans hs)
  exact (hp.run_high (by omega)).trans hs

/-- The slots of the runs, and every slot that is written, are in runs after the placement. -/
theorem inRun {x : Nat} (h : InRun o r x ∨ (e < x ∧ x ≤ n)) : InRun o' r' x := by
  have hhe := hp.home_le
  unfold InRun at h ⊢
  by_cases hlow : x ≤ e
  · have hx := h.resolve_right (by omega)
    rw [hp.countBelow_run_low hlow]
    rcases Nat.lt_or_ge h0 (x + 1) with hlt | hge
    · have ho := hp.countBelow_occ hlt
      have hbit := Bool.toNat_le (o h0)
      omega
    · rwa [countBelow_marked_of_le hp.occ hge]
  have ho := hp.countBelow_occ (s := x + 1) (by omega)
  by_cases hmid : x ≤ n
  · have hr := hp.countBelow_run_mid (s := x - 1) (by omega) (by omega)
    rw [Nat.sub_add_cancel (by omega)] at hr
    have hlt : countBelow r (x - 1) < countBelow o (x + 1) := by
      by_cases hxe : x - 1 = e
      · have hrank := hp.rank
        have hmono := countBelow_mono (p := o) (show h0 + 1 ≤ x + 1 by omega)
        rw [hxe]
        omega
      · have hfull := hp.full (x - 1) (by omega) (by omega)
        exact lt_of_lt_of_le hfull (countBelow_mono (by omega))
    omega
  · have hr := hp.countBelow_run_high hb (s := x) (by omega)
    have hx := h.resolve_right (by omega)
    omega

theorem appended {α : Type} {f f' : Nat → α} {v : α}
    (hf : ∀ x, f' x = if x = e + 1 then v else if e + 1 < x ∧ x ≤ n then f (x - 1) else f x) :
    Appended o r f o' r' f' N h0 v where
  balanced := hp.balanced hb
  occ := hp.occ
  kept u hu hne := by
    have hfirst := hu.first_le
    have hn := hp.end_lt
    rcases hp.run_position hb hu with h | ⟨h1, h2⟩ | h
    · refine ⟨0, hp.isRun_low hb hu hne h, fun x hx hx' => ?_⟩
      rw [Nat.add_zero, hf, if_neg (by omega), if_neg (by omega)]
    · refine ⟨1, hp.isRun_mid hu h1 h2, fun x hx hx' => ?_⟩
      rw [hf, if_neg (by omega), if_pos (by omega), Nat.add_sub_cancel]
    · refine ⟨0, hp.isRun_high hb hu h, fun x hx hx' => ?_⟩
      rw [Nat.add_zero, hf, if_neg (by omega), if_neg (by omega)]
  grown u hu h := by
    have hlast := hp.last_eq hu h
    refine ⟨hp.isRun_grown hu h, fun x hx hx' => ?_, by rw [hf, if_pos (by omega)]⟩
    rw [hf, if_neg (by omega), if_neg (by omega)]
  begun ho := ⟨e + 1, hp.isRun_begun ho, by rw [hf, if_pos rfl]⟩
  emptied x _ h := by
    obtain ⟨hx, hout⟩ := not_or.mp (mt (hp.inRun hb) h)
    have hn := hp.end_lt
    exact ⟨hx, by rw [hf, if_neg (by omega), if_neg (by omega)]⟩

end PlacedAfter

end Sys2Proof.Machine
end

section
/-! PROOF. A well-formed store is a balanced marking, its runs are those of the marking, and INSERT appends to one of them (10_state.md R30,
43_filter_ops.md R138). -/

namespace Sys2Proof.Machine

section store

variable {c : Config} {m : Memory}

/-! ### The words of a filter as counts (10_state.md R30) -/

theorem homes_getElem?_eq_some_iff {k h : Nat} :
    (homes c m)[k]? = some h ↔ h < c.nslots ∧ slotOcc c m h = true ∧ countBelow (slotOcc c m) h = k :=
  getElem?_filter_range_eq_some_iff

theorem runEnds_getElem?_eq_some_iff {k e : Nat} :
    (runEnds c m)[k]? = some e ↔ e < c.nslots ∧ slotRun c m e = true ∧ countBelow (slotRun c m) e = k :=
  getElem?_filter_range_eq_some_iff

theorem homes_length (c : Config) (m : Memory) : (homes c m).length = countBelow (slotOcc c m) c.nslots := length_filter_range _ _

theorem runEnds_length (c : Config) (m : Memory) : (runEnds c m).length = countBelow (slotRun c m) c.nslots := length_filter_range _ _

theorem StoreWellFormed.balanced (hw : StoreWellFormed c m) : Balanced (slotOcc c m) (slotRun c m) c.nslots where
  total := by rw [← homes_length, ← runEnds_length, hw.length_eq]
  le s hs := by
    by_contra hlt
    obtain ⟨e, he, hr, hk⟩ := exists_mark_of_lt_countBelow (Nat.lt_of_not_le hlt)
    have hek := List.getElem?_eq_some_iff.mp (runEnds_getElem?_eq_some_iff.mpr ⟨by omega, hr, hk⟩)
    obtain ⟨hke, hee⟩ := hek
    have hkh := hw.length_eq ▸ hke
    obtain ⟨hhN, ho, hhk⟩ := homes_getElem?_eq_some_iff.mp (List.getElem?_eq_getElem hkh)
    have hle := hw.get hkh hke
    rw [List.get_eq_getElem, List.get_eq_getElem, hee] at hle
    have := countBelow_lt ho (show _ < s from lt_of_le_of_lt hle he)
    omega

theorem Balanced.storeWellFormed (hb : Balanced (slotOcc c m) (slotRun c m) c.nslots) : StoreWellFormed c m := by
  refine List.forall₂_iff_get.mpr ⟨by rw [homes_length, runEnds_length, hb.total], fun k h1 h2 => ?_⟩
  simp only [List.get_eq_getElem]
  obtain ⟨hhN, ho, hhk⟩ := homes_getElem?_eq_some_iff.mp (List.getElem?_eq_getElem h1)
  obtain ⟨heN, hr, hek⟩ := runEnds_getElem?_eq_some_iff.mp (List.getElem?_eq_getElem h2)
  by_contra hlt
  have hle := hb.le ((runEnds c m)[k] + 1) heN
  rw [countBelow_succ_of_true hr] at hle
  have hmono := countBelow_mono (p := slotOcc c m) (show (runEnds c m)[k] + 1 ≤ (homes c m)[k] from Nat.lt_of_not_le hlt)
  omega

/-! ### The runs of the store -/

/-- The k-th run is that of the k-th home and the k-th run-end, and starts above the run-end before. -/
theorem runsFrom_getElem?_eq_some_iff {lo : Nat} {hs es : List Nat} {k : Nat} {u : Run} :
    (runsFrom lo hs es)[k]? = some u ↔ hs[k]? = some u.home ∧ es[k]? = some u.last ∧
      ∃ p, (lo :: es.map (· + 1))[k]? = some p ∧ u.first = max u.home p := by
  induction hs generalizing lo es k with
  | nil => simp [runsFrom]
  | cons h hs ih =>
    cases es with
    | nil => simp [runsFrom]
    | cons e es =>
      cases k with
      | zero =>
        obtain ⟨home, first, last⟩ := u
        simp only [runsFrom, List.getElem?_cons_zero, Option.some.injEq, Run.mk.injEq]
        constructor
        · rintro ⟨rfl, rfl, rfl⟩
          exact ⟨rfl, rfl, _, rfl, rfl⟩
        · rintro ⟨rfl, rfl, _, rfl, rfl⟩
          exact ⟨rfl, rfl, rfl⟩
      | succ k => simp only [runsFrom, List.getElem?_cons_succ, List.map_cons, ih]

/-- The bounds of the runs: the k-th is where k run-ends lie below, and right after the last of them. -/
theorem runBound_getElem?_eq_some_iff {k p : Nat} :
    (0 :: (runEnds c m).map (· + 1))[k]? = some p ↔
      p ≤ c.nslots ∧ countBelow (slotRun c m) p = k ∧ (p = 0 ∨ slotRun c m (p - 1) = true) := by
  cases k with
  | zero =>
    rw [List.getElem?_cons_zero, Option.some.injEq]
    constructor
    · rintro rfl
      exact ⟨Nat.zero_le _, countBelow_zero _, .inl rfl⟩
    · rintro ⟨_, hcount, hp⟩
      by_contra hne
      have := countBelow_lt (hp.resolve_left fun h => hne h.symm) (show p - 1 < p by omega)
      omega
  | succ j =>
    rw [List.getElem?_cons_succ, List.getElem?_map, Option.map_eq_some_iff]
    simp only [runEnds_getElem?_eq_some_iff]
    constructor
    · rintro ⟨e, ⟨hN, hr, hj⟩, rfl⟩
      exact ⟨hN, by rw [countBelow_succ_of_true hr, hj], .inr hr⟩
    · rintro ⟨hN, hcount, hp⟩
      have hpos : p ≠ 0 := by
        rintro rfl
        simp at hcount
      have hbit := hp.resolve_left hpos
      obtain ⟨e, rfl⟩ := Nat.exists_eq_succ_of_ne_zero hpos
      rw [Nat.succ_eq_add_one, Nat.add_sub_cancel] at hbit
      rw [Nat.succ_eq_add_one, countBelow_succ_of_true hbit] at hcount
      exact ⟨e, ⟨hN, hbit, by omega⟩, rfl⟩

/-- The runs listed for a well-formed store are those of its markings. -/
theorem mem_runs_iff (hw : StoreWellFormed c m) {u : Run} :
    u ∈ runs c m ↔ IsRun (slotOcc c m) (slotRun c m) c.nslots u := by
  simp only [List.mem_iff_getElem?, runs, runsFrom_getElem?_eq_some_iff, homes_getElem?_eq_some_iff, runEnds_getElem?_eq_some_iff,
    runBound_getElem?_eq_some_iff]
  constructor
  · rintro ⟨k, ⟨_, ho, hh⟩, ⟨hN, hr, he⟩, p, ⟨_, hp, hbit⟩, hfirst⟩
    have hu := hw.balanced.isRun_of_number ho hh hr hN he hp hbit
    rwa [← hfirst] at hu
  · intro hu
    have hlast := hu.countBelow_eq hu.first_le (le_refl _)
    obtain ⟨p, hpe, hpk, hbit⟩ := exists_runBound (slotRun c m) u.last
    have hv := hw.balanced.isRun_of_number hu.home rfl hu.last hu.last_lt hlast (hpk.trans hlast) hbit
    have hN := hu.last_lt
    exact ⟨_, ⟨lt_of_le_of_lt (hu.home_le.trans hu.first_le) hN, hu.home, rfl⟩, ⟨hN, hu.last, hlast⟩, p,
      ⟨hpe.trans hN.le, hpk.trans hlast, hbit⟩, congrArg Run.first (hu.unique hv rfl)⟩

/-- A slot is covered exactly when the counts put it in a run (R30). -/
theorem slotCovered_iff (hw : StoreWellFormed c m) {x : Nat} (hx : x < c.nslots) :
    slotCovered c m x = true ↔ InRun (slotOcc c m) (slotRun c m) x := by
  rw [hw.balanced.inRun_iff hx]
  simp only [slotCovered, List.any_eq_true, Bool.and_eq_true, decide_eq_true_eq, mem_runs_iff hw]

theorem slotCovered_eq_false_iff (hw : StoreWellFormed c m) {x : Nat} (hx : x < c.nslots) :
    slotCovered c m x = false ↔ ¬ InRun (slotOcc c m) (slotRun c m) x := by
  rw [← slotCovered_iff hw hx, Bool.not_eq_true]

/-! ### The remainders of a home -/

/-- The remainders of a home are those of its run's slots, lowest first. -/
theorem storedAt_of_isRun (hw : StoreWellFormed c m) {u : Run} (hu : IsRun (slotOcc c m) (slotRun c m) c.nslots u) :
    storedAt c m u.home = (List.range' u.first (u.last + 1 - u.first)).map (slotRem c m) := by
  unfold storedAt
  cases hf : (runs c m).find? fun v => decide (v.home = u.home) with
  | none =>
    have := List.find?_eq_none.mp hf u ((mem_runs_iff hw).mpr hu)
    simp at this
  | some v =>
    have hv := (mem_runs_iff hw).mp (List.mem_of_find?_eq_some hf)
    rw [hv.unique hu (of_decide_eq_true (List.find?_some hf :))]

/-- A slot that is no home has no remainders. -/
theorem storedAt_of_not_home (hw : StoreWellFormed c m) {x : Nat} (hx : slotOcc c m x = false) : storedAt c m x = [] := by
  unfold storedAt
  cases hf : (runs c m).find? fun v => decide (v.home = x) with
  | none => rfl
  | some v =>
    have hv := (mem_runs_iff hw).mp (List.mem_of_find?_eq_some hf)
    have hhome : v.home = x := of_decide_eq_true (List.find?_some hf :)
    exact absurd (hhome ▸ hv.home) (by simp [hx])

end store

/-- Values that move up by d along a range are listed alike. -/
theorem map_range'_shifted {α : Type} {f f' : Nat → α} {a b d : Nat} (hf : ∀ x, a ≤ x → x ≤ b → f' (x + d) = f x) :
    (List.range' (a + d) (b + d + 1 - (a + d))).map f' = (List.range' a (b + 1 - a)).map f := by
  rw [show b + d + 1 - (a + d) = b + 1 - a by omega, Nat.add_comm a d, ← List.map_add_range', List.map_map]
  refine List.map_congr_left fun x hx => ?_
  rw [List.mem_range'_1] at hx
  rw [Function.comp_apply, Nat.add_comm d x]
  exact hf x hx.1 (by omega)

/-! ### INSERT on the store -/

section insert

variable {c : Config} {m m' : Memory} {h : Word}

/-- The store `m'` is `m` with remainder `v` placed for home h0. -/
abbrev StoreAppended (c : Config) (m m' : Memory) (h0 : Nat) (v : Word) : Prop :=
  Appended (slotOcc c m) (slotRun c m) (slotRem c m) (slotOcc c m') (slotRun c m') (slotRem c m') c.nslots h0 v

/-- INSERT into a free home (R133). -/
theorem insertEmptyHome_appended (hc : c.Legal) (hm : m.wf = true) (hw : StoreWellFormed c m) {h0 : Nat} {h1 : Word}
    (hlt : h0 < c.nslots) (hrem : h1.toNat < 2 ^ c.r) (hfree : ¬ InRun (slotOcc c m) (slotRun c m) h0) :
    StoreAppended c m (insertEmptyHome c m h0 h1) h0 h1 :=
  PlacedAtHome.appended ⟨slotOcc_insertEmptyHome hc hm _ _, slotRun_insertEmptyHome hc hm _ _, hlt, hfree⟩ hw.balanced
    (slotRem_insertEmptyHome hc hm _ hrem)

/-- INSERT into an obstructed home (R134 to R136). -/
theorem insertAfter_appended (hc : c.Legal) (hm : m.wf = true) (hw : StoreWellFormed c m) {h0 e t n : Nat} {h1 : Word}
    (hlt : h0 < c.nslots) (hrem : h1.toNat < 2 ^ c.r) (hr : runEndAt c m h0 = .ok (some (e, t))) (he : h0 ≤ e)
    (hf : fas c m h0 = .ok n) : StoreAppended c m (insertAfter c m h0 h1 e n) h0 h1 := by
  obtain ⟨hrank, _, hend, hnumber⟩ := runEndAt_some_spec hc hr
  obtain ⟨hen, hn⟩ := fas_covered hlt hr he hf
  obtain ⟨hfree, hfull⟩ := fas_spec hc hf
  exact PlacedAfter.appended ⟨slotOcc_insertAfter hc hm _ _, slotRun_insertAfter hc hm _ _ hen, he, hen, hn, hend,
    hrank.trans hnumber.symm, fun x h1 h2 => hfull x (by omega) h2, hfree⟩ hw.balanced (slotRem_insertAfter hc hm _ hrem hen)

/-- An OK INSERT places the hash's remainder for its quotient (R132). -/
theorem insertStore_appended (hc : c.Legal) (hm : m.wf = true) (hw : StoreWellFormed c m) (hi : insertStore c m h = .ok m') :
    StoreAppended c m m' (hashHome c h).toNat (hashRem c h) := by
  have hlt := hashHome_lt hc h
  have hrem := hashRem_lt c h
  simp only [insertStore] at hi
  split at hi
  · cases hi
  · next hr => exact Except.ok.inj hi ▸ insertEmptyHome_appended hc hm hw hlt hrem (not_inRun_of_runEndAt_none hr)
  · next e t hr =>
    split at hi
    · next he => exact Except.ok.inj hi ▸ insertEmptyHome_appended hc hm hw hlt hrem (not_inRun_of_runEndAt hc hr he)
    · next he =>
      split at hi
      · cases hi
      · next n hf => exact Except.ok.inj hi ▸ insertAfter_appended hc hm hw hlt hrem hr (by omega) hf

namespace StoreAppended

variable {h0 : Nat} {v : Word} (ha : StoreAppended c m m' h0 v)

include ha

/-- What the placement leaves is a well-formed store. -/
theorem storeWellFormed : StoreWellFormed c m' := ha.balanced.storeWellFormed

/-- The remainders of every slot but h0 are as they were. -/
theorem storedAt_of_ne (hw : StoreWellFormed c m) {x : Nat} (hN : x < c.nslots) (hx : x ≠ h0) :
    storedAt c m' x = storedAt c m x := by
  cases ho : slotOcc c m x with
  | false => rw [storedAt_of_not_home hw ho, storedAt_of_not_home ha.storeWellFormed (by simp [ha.occ, hx, ho])]
  | true =>
    obtain ⟨u, hu, rfl⟩ := hw.balanced.exists_isRun_of_home ho hN
    obtain ⟨d, hu', hrem⟩ := ha.kept u hu hx
    rw [storedAt_of_isRun hw hu]
    exact (storedAt_of_isRun ha.storeWellFormed hu').trans (map_range'_shifted hrem)

/-- The remainders of h0 are those it had and the new one. -/
theorem storedAt_home (hw : StoreWellFormed c m) (hN : h0 < c.nslots) : storedAt c m' h0 = storedAt c m h0 ++ [v] := by
  cases ho : slotOcc c m h0 with
  | false =>
    obtain ⟨x, hu, hv⟩ := ha.begun ho
    rw [storedAt_of_not_home hw ho, List.nil_append]
    refine (storedAt_of_isRun ha.storeWellFormed hu).trans ?_
    simp [hv]
  | true =>
    obtain ⟨u, hu, rfl⟩ := hw.balanced.exists_isRun_of_home ho hN
    obtain ⟨hu', hrem, hv⟩ := ha.grown u hu rfl
    have hfirst := hu.first_le
    refine (storedAt_of_isRun ha.storeWellFormed hu').trans ?_
    rw [storedAt_of_isRun hw hu, ← map_range'_shifted (d := 0) hrem]
    simp only [Nat.add_zero]
    rw [show u.last + 1 + 1 - u.first = u.last + 1 - u.first + 1 by omega, List.range'_concat, List.map_append, Nat.one_mul,
      show u.first + (u.last + 1 - u.first) = u.last + 1 by omega, List.map_singleton, hv]

/-- The slots in no run have zero lanes after the placement where they had before. -/
theorem emptyLanesZero (hw : StoreWellFormed c m) (hz : EmptyLanesZero c m) : EmptyLanesZero c m' := fun x hx hfree => by
  rw [slotCovered_eq_false_iff ha.storeWellFormed hx] at hfree
  obtain ⟨hfree', hrem⟩ := ha.emptied x hx hfree
  rw [hrem]
  exact hz x hx ((slotCovered_eq_false_iff hw hx).mpr hfree')

/-- The homes after the placement are those before and h0. -/
theorem mem_homes_iff (hN : h0 < c.nslots) {x : Nat} : x ∈ homes c m' ↔ x = h0 ∨ x ∈ homes c m := by
  simp only [homes, List.mem_filter, List.mem_range, ha.occ, Bool.or_eq_true, decide_eq_true_eq]
  constructor
  · rintro ⟨hx, h | h⟩
    · exact .inl h
    · exact .inr ⟨hx, h⟩
  · rintro (rfl | ⟨hx, h⟩)
    · exact ⟨hN, .inl rfl⟩
    · exact ⟨hx, .inr h⟩

end StoreAppended

end insert

/-- Settles O51: an OK INSERT is a placement, and a placement appends to the home's run and to no other. -/
theorem insertAppendsToItsHome : Obligations.InsertAppendsToItsHome := by
  intro h s t hc hm _ hw he hok
  rcases exec_insert_cases he with ⟨st, hst, rfl⟩ | ⟨m, _, hi, rfl⟩
  · exact absurd hok hst
  · have ha := insertStore_appended hc hm hw hi
    refine ⟨ha.storeWellFormed, fun x hx => ?_⟩
    by_cases hxh : x = (hashHome s.cfg h).toNat
    · rw [if_pos hxh, hxh]
      exact ha.storedAt_home hw (hashHome_lt hc h)
    · rw [if_neg hxh]
      exact ha.storedAt_of_ne hw hx hxh

end Sys2Proof.Machine
end

section
/-! PROOF. What steps and runs of INSERTs keep of a store that is fit for the filter's guarantees (10_state.md R31, 70_reset_and_hazards.md
R177). -/

namespace Sys2Proof.Machine

/-! ### The cleared store (43_filter_ops.md R139) -/

section zero

variable {c : Config}

@[simp] theorem slotOcc_zero (x : Nat) : slotOcc c Memory.zero x = false := by simp [slotOcc]

@[simp] theorem slotRun_zero (x : Nat) : slotRun c Memory.zero x = false := by simp [slotRun]

@[simp] theorem slotRem_zero (x : Nat) : slotRem c Memory.zero x = 0#64 := by simp [slotRem]

@[simp] theorem homes_zero : homes c Memory.zero = [] := by simp [homes]

@[simp] theorem runEnds_zero : runEnds c Memory.zero = [] := by simp [runEnds]

theorem storeWellFormed_zero : StoreWellFormed c Memory.zero := by simp [StoreWellFormed]

/-- CLEAR keeps the parameters and zeroes the store. -/
theorem exec_clear_store {s t : State} (he : exec .clear s = .next t) : t.cfg = s.cfg ∧ t.mem = Memory.zero := by
  have ht := Host.Outcome.next.inj he
  exact ⟨(congrArg State.cfg ht).symm, (congrArg State.mem ht).symm⟩

theorem filterStore_zero : FilterStore c Memory.zero := ⟨storeWellFormed_zero, fun x _ _ => slotRem_zero x⟩

end zero

/-! ### Commands and steps -/

theorem insertStore_filterStore {c : Config} {m m' : Memory} {h : Word} (hc : c.Legal) (hm : m.wf = true) (hf : FilterStore c m)
    (hi : insertStore c m h = .ok m') : FilterStore c m' :=
  have ha := insertStore_appended hc hm hf.1 hi
  ⟨ha.storeWellFormed, ha.emptyLanesZero hf.1 hf.2⟩

/-- The commands that write the store are INSERT and CLEAR, and the two raw writes (20_memory.md R42). -/
theorem writesStore_cases {i : Instr} (hw : i.writesStore = true) (hr : rawWrite i = false) : (∃ h, i = .insert h) ∨ i = .clear := by
  cases i with
  | insert h => exact .inl ⟨h, rfl⟩
  | clear => exact .inr rfl
  | stw a b => cases hr
  | remwr a b => cases hr
  | _ => cases hw

/-- A command that does not write the store leaves it and INIT as they were. -/
theorem exec_of_not_writesStore {i : Instr} {s t : State} (hw : i.writesStore = false) (he : exec i s = .next t) :
    t.cfg = s.cfg ∧ t.init = s.init ∧ t.mem = s.mem := by
  obtain ⟨m, init, st, x, y, rfl, hinit, hmem⟩ := (commandEnd_of_exec he).eq_respond
  refine ⟨rfl, hinit ?_, hmem hw⟩
  rintro rfl
  cases hw

/-- Every command but STW and REMWR keeps a store fit for the filter's guarantees. -/
theorem exec_filterStore {i : Instr} {s t : State} (hc : s.cfg.Legal) (hm : s.mem.wf = true)
    (hf : s.init = true → FilterStore s.cfg s.mem) (hr : rawWrite i = false) (he : exec i s = .next t) (ht : t.init = true) :
    FilterStore t.cfg t.mem := by
  cases hw : i.writesStore with
  | false =>
    obtain ⟨hcfg, hinit, hmem⟩ := exec_of_not_writesStore hw he
    rw [hcfg, hmem]
    exact hf (hinit ▸ ht)
  | true =>
    rcases writesStore_cases hw hr with ⟨h, rfl⟩ | rfl
    · rcases exec_insert_cases he with ⟨st, _, rfl⟩ | ⟨m, hinit, hi, rfl⟩
      · exact hf ht
      · exact insertStore_filterStore hc hm (hf hinit) hi
    · obtain ⟨_, hmem⟩ := exec_clear_store he
      exact hmem ▸ filterStore_zero

/-- Settles O56: of the four things a step can do, a reset clears INIT, the ports leave the store alone, and a command keeps it fit. -/
theorem stepKeepsFilterStore : Obligations.StepKeepsFilterStore := by
  intro s t hs hf hraw he ht
  have hsame : ∀ u : State, u.cfg = s.cfg → u.init = s.init → u.mem = s.mem → u.init = true → FilterStore u.cfg u.mem :=
    fun u hcfg hinit hmem hu => by
      rw [hcfg, hmem]
      exact hf (hinit ▸ hu)
  rcases stepWith_cases s.pins s.consumeInput with ⟨_, h⟩ | ⟨_, hb, h⟩ | ⟨_, _, _, h⟩ | ⟨_, _, _, h⟩ <;>
    have he := h.symm.trans he
  · obtain rfl := Host.Outcome.next.inj he
    cases ht
  · cases hd : decode s.consumeInput.latched with
    | ok i =>
      rw [execLatched_ok hd] at he
      exact exec_filterStore (s := s.consumeInput) hs.legal hs.memWf hf (hraw i hb hd) he ht
    | error e =>
      rw [execLatched_illegal hd] at he
      obtain rfl := Host.Outcome.next.inj he
      exact hf ht
  · obtain rfl := Host.Outcome.next.inj he
    exact hsame _ (by split <;> rfl) (by split <;> rfl) (by split <;> rfl) ht
  · obtain rfl := Host.Outcome.next.inj he
    exact hsame _ (by split <;> rfl) (by split <;> rfl) (by split <;> rfl) ht

/-! ### Runs of INSERTs -/

/-- A run of INSERTs that all end OK begins with one that does. -/
theorem afterInserts_cons {s u : State} {h : Word} {hs : List Word} (he : afterInserts s (h :: hs) = some u) :
    ∃ t, t.cfg = s.cfg ∧ insertStore s.cfg s.mem h = .ok t.mem ∧ afterInserts t hs = some u := by
  obtain ⟨t, ht⟩ := exec_answers (.insert h) s
  simp only [afterInserts, ht] at he
  split at he
  · next hok =>
    rcases exec_insert_cases ht with ⟨st, hst, rfl⟩ | ⟨m, _, hi, rfl⟩
    · exact absurd hok hst
    · exact ⟨{ s with mem := m }.finish 0#64 0#64, rfl, hi, he⟩
  · cases he

/-- What a run of INSERTs that all end OK leaves: a well-formed store, whose homes are those it began with and the quotients inserted. -/
theorem afterInserts_homes {s u : State} {hs : List Word} (hc : s.cfg.Legal) (hm : s.mem.wf = true)
    (hw : StoreWellFormed s.cfg s.mem) (he : afterInserts s hs = some u) :
    StoreWellFormed u.cfg u.mem ∧
      ∀ x, x ∈ homes u.cfg u.mem ↔ x ∈ homes s.cfg s.mem ∨ x ∈ hs.map fun h => (hashHome s.cfg h).toNat := by
  induction hs generalizing s with
  | nil =>
    obtain rfl := Option.some.inj he
    exact ⟨hw, by simp⟩
  | cons h hs ih =>
    obtain ⟨t, hcfg, hi, he⟩ := afterInserts_cons he
    have ha := insertStore_appended hc hm hw hi
    obtain ⟨hwu, hhomes⟩ := ih (hcfg ▸ hc) (insertStore_wf hm hi) (hcfg ▸ ha.storeWellFormed) he
    refine ⟨hwu, fun x => (hhomes x).trans ?_⟩
    simp only [hcfg, ha.mem_homes_iff (hashHome_lt hc h), List.map_cons, List.mem_cons]
    exact or_assoc.trans or_left_comm

theorem homes_nodup (c : Config) (m : Memory) : (homes c m).Nodup := List.nodup_range.filter _

/-- Settles O55: the homes are the distinct quotients inserted, and the store is well-formed, so the run-ends are as many. -/
theorem homesRunEndsAndQuotientsAgree : Obligations.HomesRunEndsAndQuotientsAgree := by
  intro s t u hs hc ht hu
  obtain ⟨hcfg, hmem⟩ := exec_clear_store ht
  obtain ⟨hw, hhomes⟩ := afterInserts_homes (hcfg ▸ hc) (hmem ▸ Memory.zero_wf) (hmem ▸ storeWellFormed_zero) hu
  refine ⟨hw.length_eq, List.Perm.length_eq ?_⟩
  refine (List.perm_ext_iff_of_nodup (homes_nodup _ _) (List.nodup_dedup _)).mpr fun x => ?_
  rw [hhomes, List.mem_dedup, hmem, homes_zero, hcfg]
  simp only [List.not_mem_nil, false_or]

end Sys2Proof.Machine
end

section
/-! PROOF. The decoder told through the fields of the command word: what an op field selects, which words a row of the opcode table
selects, and what an encoded command decodes to (30_encoding.md R61, R62, R65 to R67). -/

open Sys2Proof.Laws.EncodedFields (pack_fields)

namespace Sys2Proof

/-! ### Fields of a command word (30_encoding.md R61) -/

/-- A command word is its three fields. -/
theorem Command.pack_op_a_b (w : Command) : Command.pack (Command.op w) (Command.a w) (Command.b w) = w := by
  calc Command.op w ++ Command.b w ++ Command.a w
    _ = w.extractLsb' 64 72 ++ Command.a w := congrArg (· ++ Command.a w) (BitVec.extractLsb'_append_extractLsb'_eq_extractLsb' rfl)
    _ = w.extractLsb' 0 136 := BitVec.extractLsb'_append_extractLsb'_eq_extractLsb' rfl
    _ = w := BitVec.extractLsb'_eq_self

theorem Command.pack_inj {op op' : BitVec 8} {a a' b b' : Word} :
    Command.pack op a b = Command.pack op' a' b' ↔ op = op' ∧ a = a' ∧ b = b' := by
  refine ⟨fun h => ?_, fun ⟨hop, ha, hb⟩ => hop ▸ ha ▸ hb ▸ rfl⟩
  obtain ⟨hop, ha, hb⟩ := pack_fields op a b
  obtain ⟨hop', ha', hb'⟩ := pack_fields op' a' b'
  exact ⟨hop ▸ hop' ▸ congrArg Command.op h, ha ▸ ha' ▸ congrArg Command.a h, hb ▸ hb' ▸ congrArg Command.b h⟩

theorem Command.pack_and (op op' : BitVec 8) (a a' b b' : Word) :
    Command.pack op a b &&& Command.pack op' a' b' = Command.pack (op &&& op') (a &&& a') (b &&& b') :=
  BitVec.and_append.trans (congrArg (· ++ (a &&& a')) BitVec.and_append)

/-- A command word as a number. -/
theorem Command.pack_toNat (op : BitVec 8) (a b : Word) :
    (Command.pack op a b).toNat = op.toNat * 2 ^ 128 + b.toNat * 2 ^ 64 + a.toNat := by
  have htop : (op ++ b).toNat = op.toNat * 2 ^ 64 + b.toNat := by
    rw [BitVec.toNat_append, ← Nat.shiftLeft_add_eq_or_of_lt b.isLt, Nat.shiftLeft_eq]
  have hall : (Command.pack op a b).toNat = (op ++ b).toNat * 2 ^ 64 + a.toNat := by
    rw [← Nat.shiftLeft_eq, Nat.shiftLeft_add_eq_or_of_lt a.isLt]
    exact BitVec.toNat_append _ _
  rw [hall, htop, Nat.add_mul, Nat.mul_assoc, ← Nat.pow_add]

theorem decode_pack (op : BitVec 8) (a b : Word) : decode (Command.pack op a b) = decodeFields op a b := by
  obtain ⟨hop, ha, hb⟩ := pack_fields op a b
  rw [decode, hop, ha, hb]

/-! ### What the op field selects (30_encoding.md R62, R66, R67) -/

/-- The op field selects a command of that opcode, which reads the operand fields its format names; or it is outside the table. -/
theorem decodeFields_cases (op : BitVec 8) (a b : Word) :
    (∃ i, decodeFields op a b = .ok i ∧ i.opcode = op ∧ i.operandA = (if i.format = .f0 then 0#64 else a) ∧
      i.operandB = (if i.format = .f2 then b else 0#64)) ∨
    (decodeFields op a b = .error (.illegalOpcode op) ∧ (op.toNat = 0 ∨ 0x11 ≤ op.toNat)) := by
  unfold decodeFields
  split
  case h_17 => exact .inr ⟨rfl, by grind⟩ -- what is left when op.toNat is none of 0x01 to 0x10
  all_goals next h => exact .inl ⟨_, rfl, BitVec.eq_of_toNat_eq h.symm, rfl, rfl⟩

theorem Instr.opcode_bounds (i : Instr) : 1 ≤ i.opcode.toNat ∧ i.opcode.toNat ≤ 0x10 := by
  cases i <;> simp [Instr.opcode]

theorem decodeFields_encoded (i : Instr) : decodeFields i.opcode i.operandA i.operandB = .ok i := by
  cases i <;> rfl

/-- An opcode alone fixes the mnemonic, whatever the operands. -/
theorem decodeFields_opcode (i : Instr) (a b : Word) : ∃ j, decodeFields i.opcode a b = .ok j ∧ j.mnemonic = i.mnemonic := by
  cases i <;> exact ⟨_, rfl, rfl⟩

/-- A word decodes to a command of its opcode, with its own fields for the operands the command reads and zero for the others. -/
theorem fields_of_decode {w : Command} {i : Instr} (h : decode w = .ok i) :
    i.opcode = Command.op w ∧ i.operandA = (if i.format = .f0 then 0#64 else Command.a w) ∧
      i.operandB = (if i.format = .f2 then Command.b w else 0#64) := by
  rcases decodeFields_cases (Command.op w) (Command.a w) (Command.b w) with ⟨j, hj, hfields⟩ | ⟨he, _⟩
  · obtain rfl := Except.ok.inj (hj.symm.trans h)
    exact hfields
  · cases he.symm.trans h

/-- Settles O1: decoding reads the three fields that encoding packs, and the command an op field selects has that opcode and the operand
fields of its format. -/
theorem encodeThenDecode : Obligations.EncodeThenDecode := by
  refine ⟨fun i => (decode_pack _ _ _).trans (decodeFields_encoded i), fun w i h => ?_⟩
  obtain ⟨hop, ha, hb⟩ := fields_of_decode h
  rw [encode, hop, ha, hb]

/-- Settles O2: an op field that selects a command is that command's opcode, and every opcode is from 0x01 to 0x10. -/
theorem decodeRejectsIllegalOpcodesOnly : Obligations.DecodeRejectsIllegalOpcodesOnly := by
  intro w
  rcases decodeFields_cases (Command.op w) (Command.a w) (Command.b w) with ⟨i, hi, hop, _⟩ | ⟨he, hop⟩
  · have := i.opcode_bounds
    refine iff_of_false (fun h => ?_) (hop ▸ by omega)
    cases hi.symm.trans h
  · exact iff_of_true he hop

/-! ### Selection by mask and match (30_encoding.md R65) -/

/-- A command of each row of the opcode table, in the table's order. -/
def commandOfEachRow : List Instr :=
  [.rank64 0 0, .select64 0 0, .ldw 0, .stw 0 0, .remrd 0, .remwr 0 0, .grank 0, .gsel 0, .runend 0, .fas 0, .homecov 0, .split 0,
   .insert 0, .maycon 0, .clear, .rdcsr 0]

theorem opcodeTable_eq_map : opcodeTable = commandOfEachRow.map fun i => opcodeRow i.mnemonic i.opcode.toNat := rfl

theorem opcodeTable_getElem?_opcode (i : Instr) : opcodeTable[i.opcode.toNat - 1]? = some (opcodeRow i.mnemonic i.opcode.toNat) := by
  cases i <;> rfl

/-- The rows of the table are the rows of the commands (30_encoding.md R66). -/
theorem mem_opcodeTable_iff {row : OpcodeRow} : row ∈ opcodeTable ↔ ∃ i : Instr, row = opcodeRow i.mnemonic i.opcode.toNat := by
  refine ⟨fun h => ?_, fun ⟨i, hi⟩ => hi ▸ List.mem_of_getElem? (opcodeTable_getElem?_opcode i)⟩
  obtain ⟨i, _, hi⟩ := List.mem_map.mp (opcodeTable_eq_map ▸ h)
  exact ⟨i, hi.symm⟩

/-- The match of a row is the command word of its opcode with both operand fields zero. -/
theorem opcodeRow_pattern (mnemonic : String) (op : BitVec 8) : (opcodeRow mnemonic op.toNat).pattern = Command.pack op 0#64 0#64 := by
  refine BitVec.eq_of_toNat_eq ?_
  have := op.isLt
  rw [Command.pack_toNat, opcodeRow, BitVec.toNat_ofNat]
  simp only [BitVec.toNat_ofNat]
  omega

theorem opcodeRow_mask (mnemonic : String) (op : Nat) : (opcodeRow mnemonic op).mask = Command.pack 0xFF#8 0#64 0#64 := rfl

/-- A row selects the words with its opcode in their op field. -/
theorem opcodeRow_selects_iff (w : Command) (mnemonic : String) (op : BitVec 8) :
    w &&& (opcodeRow mnemonic op.toNat).mask = (opcodeRow mnemonic op.toNat).pattern ↔ Command.op w = op := by
  have hand : w &&& Command.pack 0xFF#8 0#64 0#64 = Command.pack (Command.op w) 0#64 0#64 := by
    conv_lhs => rw [← Command.pack_op_a_b w, Command.pack_and]
    rw [show 0xFF#8 = BitVec.allOnes 8 from rfl, BitVec.and_allOnes, BitVec.and_zero, BitVec.and_zero]
  rw [opcodeRow_mask, opcodeRow_pattern, hand, Command.pack_inj]
  simp

/-- Settles O3: the row of a command selects the words of its opcode, which are those that decode to a command of that mnemonic. -/
theorem decodeFollowsOpcodeTable : Obligations.DecodeFollowsOpcodeTable := by
  refine fun w => ⟨fun i h => ?_, fun row hrow hsel => ?_⟩
  · obtain ⟨hop, _⟩ := fields_of_decode h
    exact ⟨_, mem_opcodeTable_iff.mpr ⟨i, rfl⟩, (opcodeRow_selects_iff w _ _).mpr hop.symm, rfl⟩
  · obtain ⟨i, rfl⟩ := mem_opcodeTable_iff.mp hrow
    have hop := (opcodeRow_selects_iff w _ _).mp hsel
    rw [decode, hop]
    exact decodeFields_opcode i _ _

/-- Settles O4: the words are written out, so decoding them is a computation. -/
theorem writtenWordsDecode : Obligations.WrittenWordsDecode := ⟨rfl, rfl, rfl, rfl, rfl, rfl⟩

end Sys2Proof
end

section
/-! PROOF. The hash split as division and remainder, and the pseudo-commands whose operand it takes apart (30_encoding.md R70,
43_filter_ops.md R130). -/

namespace Sys2Proof.Machine

section hashSplit

variable {c : Config}

theorem rmask_toNat (hc : c.Legal) : c.rmask.toNat = 2 ^ c.r - 1 := by
  obtain ⟨_, _, hp⟩ := hc
  have hle : 2 ^ c.r ≤ 2 ^ 64 := Nat.pow_le_pow_right (by decide) (by omega)
  have := Nat.two_pow_pos c.r
  rw [Config.rmask, BitVec.toNat_ofNat, Nat.mod_eq_of_lt (by omega)]

/-- QMASK is the ones from bit r to bit P - 1 (00_scope.md R7). -/
theorem testBit_qmask (hc : c.Legal) (i : Nat) : c.qmask.toNat.testBit i = decide (c.r ≤ i ∧ i < c.p) := by
  obtain ⟨_, _, hp⟩ := hc
  rw [Config.qmask, BitVec.toNat_ofNat, Nat.testBit_mod_two_pow, Nat.testBit_xor, Nat.testBit_two_pow_sub_one,
    Nat.testBit_two_pow_sub_one]
  unfold Config.p
  by_cases h1 : i < c.r <;> by_cases h2 : i < c.q + c.r <;> simp [h1, h2] <;> omega

/-- The quotient is what is left of the low P bits of the hash above the remainder (43_filter_ops.md R130). -/
theorem hashHome_toNat (hc : c.Legal) (h : Word) : (hashHome c h).toNat = h.toNat % 2 ^ c.p / 2 ^ c.r := by
  rw [hashHome, BitVec.toNat_ushiftRight, BitVec.toNat_and, ← Nat.shiftRight_eq_div_pow]
  refine Nat.eq_of_testBit_eq fun i => ?_
  simp only [Nat.testBit_shiftRight, Nat.testBit_and, testBit_qmask hc, Nat.testBit_mod_two_pow, Nat.le_add_right, true_and, Bool.and_comm]

theorem hashRem_toNat (hc : c.Legal) (h : Word) : (hashRem c h).toNat = h.toNat % 2 ^ c.r := by
  rw [hashRem, BitVec.toNat_and, rmask_toNat hc, Nat.and_two_pow_sub_one_eq_mod]

/-- The operand of the QR forms has h1 in its low r bits and h0 above them (30_encoding.md R70). -/
theorem qrHash_toNat (hc : c.Legal) {h0 h1 : Nat} (hlt0 : h0 < 2 ^ c.q) (hlt1 : h1 < 2 ^ c.r) :
    (qrHash c h0 h1).toNat = h0 * 2 ^ c.r + h1 ∧ h0 * 2 ^ c.r + h1 < 2 ^ c.p := by
  have hp : h0 * 2 ^ c.r + h1 < 2 ^ c.p := by
    rw [Config.p, Nat.pow_add, Nat.mul_comm h0]
    exact Nat.mul_add_lt_mul_of_lt_of_lt hlt0 hlt1
  have h64 : 2 ^ c.p ≤ 2 ^ 64 := Nat.pow_le_pow_right (by decide) hc.2.2
  rw [qrHash, BitVec.toNat_ofNat, ← Nat.shiftLeft_add_eq_or_of_lt hlt1, Nat.shiftLeft_eq, Nat.mod_eq_of_lt (by omega)]
  exact ⟨rfl, hp⟩

end hashSplit

/-- Settles O5: the operand is h0 * 2^r + h1, below 2^P, so division by 2^r gives h0 and the remainder is h1. -/
theorem pseudoCommandsSplitBack : Obligations.PseudoCommandsSplitBack := by
  intro c h0 h1 hc hlt0 hlt1
  obtain ⟨hx, hp⟩ := qrHash_toNat hc hlt0 hlt1
  refine ⟨rfl, qrHash c h0 h1, rfl, rfl, hx, ?_, ?_⟩
  · rw [hashHome_toNat hc, hx, Nat.mod_eq_of_lt hp, Nat.add_comm, Nat.add_mul_div_right _ _ (Nat.two_pow_pos _), Nat.div_eq_of_lt hlt1,
      Nat.zero_add]
  · rw [hashRem_toNat hc, hx, Nat.mul_add_mod', Nat.mod_eq_of_lt hlt1]

end Sys2Proof.Machine
end

section
/-! PROOF. The ports: the acceptance of a presented command, and what the output pins show (30_encoding.md R60, R61, R63). -/

namespace Sys2Proof.Machine

theorem State.cmdReady_iff {s : State} : s.cmdReady = true ↔ s.busy = false ∧ s.rspValid = false := by
  simp [State.cmdReady]

/-- A unit that is ready for a command and not being reset accepts the one presented, or stays as it is. -/
theorem step_of_cmdReady {s : State} (hr : s.pins.rst = false) (h : s.cmdReady = true) :
    step s = .next (if s.pins.cmdValid then s.consumeInput.accept s.pins.cmd else s.consumeInput) := by
  obtain ⟨hb, hv⟩ := State.cmdReady_iff.mp h
  rcases stepWith_cases s.pins s.consumeInput with ⟨hr', _⟩ | ⟨_, hb', _⟩ | ⟨_, _, hv', _⟩ | ⟨_, _, _, he⟩
  · cases hr.symm.trans hr'
  · cases hb.symm.trans hb'
  · cases hv.symm.trans hv'
  · exact he

/-- Settles O9: a ready unit accepts the presented word, and accepting latches its three fields. -/
theorem stepAcceptsPresentedCommand : Obligations.StepAcceptsPresentedCommand := by
  intro s p ps hs hr hready hvalid
  have hp := State.pins_cons hs
  rw [step_of_cmdReady (hp ▸ hr) hready, hp, if_pos hvalid, State.consumeInput, hs]
  rfl

/-- The three fields of the response word (30_encoding.md R63). -/
theorem State.rsp_fields (s : State) :
    s.rsp.extractLsb' 128 3 = s.st.code ∧ s.rsp.extractLsb' 64 64 = s.d1 ∧ s.rsp.extractLsb' 0 64 = s.d0 := by
  refine ⟨?_, ?_, BitVec.extractLsb'_append_eq_right⟩
  · exact (BitVec.extractLsb'_append_eq_of_le (by decide)).trans BitVec.extractLsb'_append_eq_left
  · exact (BitVec.extractLsb'_append_eq_of_le (by decide)).trans BitVec.extractLsb'_append_eq_right

/-- Settles O58: the response word's fields are the response latches, and each status has its code. -/
theorem outputPinsShowState : Obligations.OutputPinsShowState := by
  intro s
  obtain ⟨hst, hd1, hd0⟩ := s.rsp_fields
  refine ⟨?_, hd1, hd0, rfl⟩
  rw [hst]
  refine ⟨?_, ?_, ?_, ?_, ?_, ?_⟩ <;> exact fun h => congrArg Status.code h

end Sys2Proof.Machine
end

section
/-! PROOF. The bit primitives: the laws of Rank and Select on a word, and the two commands that answer them (40_bit_primitives.md R80 to
R84). -/

namespace Sys2Proof

/-- Decoding a word whose op field is known. -/
theorem decode_of_op {w : Command} {op : BitVec 8} (h : Command.op w = op) :
    decode w = decodeFields op (Command.a w) (Command.b w) := h ▸ rfl

namespace Machine

theorem State.finish_eq_endOk (s : State) (x y : Word) : s.finish x y = endOk s x y := by
  simp [State.finish, State.respond, endOk, faultAfter, Status.setsFault]

section bitPrimitives

variable {w : Word} {i j k p : Nat}

/-! ### Rank on a word (R80) -/

theorem rank_eq_succ_of_bit (h : w.getLsbD p = true) : rank w p = countBelow w.getLsbD p + 1 := by
  rw [rank_eq_countBelow w (BitVec.lt_of_getLsbD h), countBelow_succ_of_true h]

theorem rank_last (w : Word) : rank w 63 = popcount w := by
  rw [rank_eq_countBelow w (by decide), popcount_eq_countBelow]

theorem rank_first (w : Word) : rank w 0 = (w.getLsbD 0).toNat := by
  rw [rank_eq_countBelow w (by decide), countBelow_succ, countBelow_zero]
  cases w.getLsbD 0 <;> rfl

theorem rank_mono (hij : i ≤ j) (hj : j < 64) : rank w i ≤ rank w j := by
  rw [rank_eq_countBelow w (by omega), rank_eq_countBelow w hj]
  exact countBelow_mono (by omega)

theorem rank_le_popcount (hi : i < 64) : rank w i ≤ popcount w :=
  rank_last w ▸ rank_mono (Nat.le_of_lt_succ hi) (by decide)

@[simp] theorem popcount_zero : popcount 0#64 = 0 := if_pos rfl

theorem rank_of_zero (i : Nat) : rank 0#64 i = 0 := by simp [rank]

theorem rank_allOnes (hp : p < 64) : rank (BitVec.allOnes 64) p = p + 1 := by
  rw [rank_eq_countBelow _ hp]
  refine Nat.count_iff_forall.mpr fun x hx => ?_
  rw [BitVec.getLsbD_allOnes, decide_eq_true (by omega)]

/-- A word other than zero has a set bit. -/
theorem one_le_popcount (hw : w ≠ 0#64) : 1 ≤ popcount w := by
  by_contra h
  refine hw (BitVec.eq_of_getLsbD_eq fun p hp => ?_)
  rw [BitVec.getLsbD_zero, Bool.eq_false_iff]
  intro hbit
  have hrank := rank_eq_succ_of_bit hbit
  have hle := rank_le_popcount (w := w) hp
  omega

/-! ### Select on a word (R82) -/

/-- The select law, P4, where the word has the bit asked for. -/
theorem select_bit (h1 : 1 ≤ k) (hk : k ≤ popcount w) :
    select w k < 64 ∧ w.getLsbD (select w k) = true ∧ rank w (select w k) = k := by
  obtain ⟨hlt, hbit, hcount⟩ := select_spec h1 hk
  exact ⟨hlt, hbit, (rank_eq_succ_of_bit hbit).trans hcount⟩

/-- The select law, P4, where it has not: no position has so high a rank. -/
theorem select_sentinel (hk : popcount w < k) : select w k = 64 := by
  have hnone : ((List.range 64).find? fun p => w.getLsbD p && decide (rank w p = k)) = none := by
    refine List.find?_eq_none.mpr fun p hp => ?_
    have hle := rank_le_popcount (w := w) (List.mem_range.mp hp)
    simp only [Bool.and_eq_true, decide_eq_true_eq]
    omega
  rw [select, hnone, Option.getD_none]

/-- The inverse law, P5: two set bits of the same rank are the same bit. -/
theorem select_rank (h : w.getLsbD p = true) : select w (rank w p) = p := by
  have hrank := rank_eq_succ_of_bit h
  obtain ⟨_, hbit, hcount⟩ := select_spec (hrank ▸ Nat.le_add_left 1 _) (rank_le_popcount (BitVec.lt_of_getLsbD h))
  exact countBelow_inj hbit h (by omega)

/-- Select of 1 is the number of trailing zeros. -/
theorem select_one (hw : w ≠ 0#64) :
    w.getLsbD (select w 1) = true ∧ ∀ j, j < select w 1 → w.getLsbD j = false := by
  obtain ⟨_, hbit, hcount⟩ := select_spec (le_refl 1) (one_le_popcount hw)
  refine ⟨hbit, fun j hj => Bool.eq_false_iff.mpr fun hset => ?_⟩
  have := countBelow_lt hset hj
  omega

theorem select_allOnes (h1 : 1 ≤ k) (hk : k ≤ 64) : select (BitVec.allOnes 64) k = k - 1 := by
  have hrank : rank (BitVec.allOnes 64) (k - 1) = k := (rank_allOnes (by omega)).trans (Nat.sub_add_cancel h1)
  have hbit : (BitVec.allOnes 64).getLsbD (k - 1) = true := by rw [BitVec.getLsbD_allOnes, decide_eq_true (by omega)]
  rw [← select_rank hbit, hrank]

/-! ### The commands (R81, R83) -/

variable {a b : Word} {s : State}

theorem exec_rank64_badArg (hb : 63 < b.toNat) : exec (.rank64 a b) s = .next (endError s .badArg) :=
  congrArg _ ((if_pos hb).trans (s.raise_eq_endError rfl))

theorem exec_rank64_ok (hb : b.toNat ≤ 63) : exec (.rank64 a b) s = .next (endOk s (BitVec.ofNat 64 (rank a b.toNat)) 0#64) :=
  congrArg _ ((if_neg (Nat.not_lt.mpr hb)).trans (s.finish_eq_endOk _ _))

theorem exec_select64_badArg (hb : b.toNat = 0) : exec (.select64 a b) s = .next (endError s .badArg) :=
  congrArg _ ((if_pos hb).trans (s.raise_eq_endError rfl))

theorem exec_select64_ok (hb : 1 ≤ b.toNat) :
    exec (.select64 a b) s = .next (endOk s (BitVec.ofNat 64 (select a b.toNat)) 0#64) :=
  congrArg _ ((if_neg (Nat.one_le_iff_ne_zero.mp hb)).trans (s.finish_eq_endOk _ _))

end bitPrimitives

/-- Settles O28: the popcount under the mask is the count of the set bits at 0 to b. -/
theorem rank64CountsBits : Obligations.Rank64CountsBits := by
  refine ⟨fun w hop => decode_of_op hop, fun a b s => ⟨exec_rank64_badArg, fun hb => ?_⟩⟩
  rw [exec_rank64_ok hb, rank_eq_countBelow a (Nat.lt_succ_of_le hb), countP_range_eq_countBelow]

/-- Settles O29: Select answers a set bit of that rank where the popcount reaches it, and the sentinel where it does not. -/
theorem select64FindsBit : Obligations.Select64FindsBit := by
  refine ⟨fun w hop => decode_of_op hop, fun a b s => ⟨exec_select64_badArg, fun hb => ⟨_, exec_select64_ok hb, ?_⟩⟩⟩
  simp only [countP_range_eq_countBelow, ← popcount_eq_countBelow]
  rcases Nat.lt_or_ge (popcount a) b.toNat with hfew | henough
  · exact .inr ⟨select_sentinel hfew, hfew⟩
  · obtain ⟨hlt, hbit, hrank⟩ := select_bit hb henough
    exact .inl ⟨hlt, hbit, rank_eq_countBelow a hlt ▸ hrank⟩

/-- Settles O30: Rank counts the set bits up to a position, and Select finds the one set bit of a rank. -/
theorem rankSelectLaws : Obligations.RankSelectLaws :=
  ⟨fun _ _ _ => rfl, fun _ _ => select_bit, fun _ _ => select_sentinel, fun _ _ => select_rank, fun w => ⟨rank_last w, rank_first w⟩,
    fun _ _ _ hij hj => rank_mono hij (Nat.lt_succ_of_le hj), rank_of_zero, fun _ hk => select_sentinel (popcount_zero ▸ hk),
    fun _ => select_one, fun _ => select_allOnes⟩

end Machine

end Sys2Proof
end

section
/-! PROOF. The commands that expose the block store and the barrel shifter: LDW, STW, REMRD and REMWR end in one of three ways, and the
unpack path reads the slot's r bits of the remainder field as a number (41_block_store.md R91 to R100, 20_memory.md R44). -/

namespace Sys2Proof.Machine

/-! ### The ends of a command that checks its operands and then goes on with the store (60_exceptions.md R152, R153, R158) -/

section storeCommand

variable {p : Prop} [Decidable p] {s u : State} {k : Memory → State}

theorem guarded_badArg (hp : p) : (if p then s.raise .badArg else u) = endError s .badArg :=
  (if_pos hp).trans (s.raise_eq_endError rfl)

theorem guardedStore_uninit (hp : ¬ p) (hi : s.init = false) :
    (if p then s.raise .badArg else s.withStore k) = endError s .uninit :=
  (if_neg hp).trans ((State.withStore_uninit hi k).trans (s.raise_eq_endError rfl))

theorem guardedStore_init (hp : ¬ p) (hi : s.init = true) : (if p then s.raise .badArg else s.withStore k) = k s.mem :=
  (if_neg hp).trans (State.withStore_init hi k)

end storeCommand

/-! ### The words of the store (R97, R98) -/

/-- Settles O31: past the two checks LDW answers the read of its address. -/
theorem ldwReadsWord : Obligations.LdwReadsWord :=
  ⟨fun _ hop => decode_of_op hop, fun _ s =>
    ⟨fun ha => congrArg _ (guarded_badArg ha),
      fun ha hi => congrArg _ (guardedStore_uninit (Nat.not_le.mpr ha) hi),
      fun ha hi => congrArg _ ((guardedStore_init (Nat.not_le.mpr ha) hi).trans (s.finish_eq_endOk _ _))⟩⟩

/-- STW ends with the store written at its one address. -/
theorem exec_stw_ok {a b : Word} {s : State} (ha : a.toNat < s.cfg.nwords) (hi : s.init = true) :
    exec (.stw a b) s = .next (endOk { s with mem := s.mem.write a.toNat b } 0#64 0#64) :=
  congrArg _ ((guardedStore_init (Nat.not_le.mpr ha) hi).trans (State.finish_eq_endOk _ _ _))

/-- Settles O32: the store STW ends with is one write away from the store before, and reads as the laws of a write say. -/
theorem stwWritesWord : Obligations.StwWritesWord :=
  ⟨fun _ hop => decode_of_op hop, fun _ _ _ hm =>
    ⟨fun ha => congrArg _ (guarded_badArg ha),
      fun ha hi => congrArg _ (guardedStore_uninit (Nat.not_le.mpr ha) hi),
      fun ha hi => ⟨_, exec_stw_ok ha hi, Memory.read_write_same hm _ _, fun _ hne => Memory.read_write_ne _ _ hne⟩⟩⟩

/-! ### The remainder field as one number (20_memory.md R44) -/

section remField

variable {c : Config} {m : Memory} {j : Nat}

theorem remFieldUpTo_lt (n : Nat) : remFieldUpTo c m j n < 2 ^ (64 * n) := by
  induction n with
  | zero => exact Nat.one_pos
  | succ n ih =>
    calc remFieldUpTo c m j n + (m.read (remWord c j n)).toNat * 2 ^ (64 * n)
        < ((m.read (remWord c j n)).toNat + 1) * 2 ^ (64 * n) := (Nat.add_lt_add_right ih _).trans_eq (by ring)
      _ ≤ 2 ^ 64 * 2 ^ (64 * n) := Nat.mul_le_mul_right _ (BitVec.isLt _)
      _ = 2 ^ (64 * (n + 1)) := by rw [← Nat.pow_add, Nat.mul_add_one, Nat.add_comm]

/-- The bits of the field's first n words are the field's bits below 64 * n. -/
theorem testBit_remFieldUpTo (n p : Nat) : (remFieldUpTo c m j n).testBit p = (decide (p < 64 * n) && fieldBit c m j p) := by
  induction n with
  | zero => simp [remFieldUpTo]
  | succ n ih =>
    rw [remFieldUpTo, Nat.add_comm, Nat.mul_comm, Nat.testBit_two_pow_mul_add _ (remFieldUpTo_lt n), ih]
    by_cases hlow : p < 64 * n
    · simp [hlow, show p < 64 * (n + 1) by omega]
    by_cases hin : p < 64 * (n + 1)
    · have hword : p / 64 = n := by omega
      have hbit : p % 64 = p - 64 * n := by omega
      simp [hlow, hin, fieldBit, hword, hbit, BitVec.testBit_toNat]
    · rw [if_neg hlow, BitVec.testBit_toNat, BitVec.getLsbD_of_ge _ _ (by omega), decide_eq_false hin, Bool.false_and]

/-- The unpack path reads `(F(j) >> b*r) mod 2^r` (R93). -/
theorem slotRem_toNat (hc : c.Legal) (m : Memory) (x : Nat) :
    (slotRem c m x).toNat = remField c m (x / 64) / 2 ^ (x % 64 * c.r) % 2 ^ c.r := by
  refine Nat.eq_of_testBit_eq fun i => ?_
  rw [BitVec.testBit_toNat, getLsbD_slotRem hc, Nat.testBit_mod_two_pow, Nat.testBit_div_two_pow, remField, testBit_remFieldUpTo]
  by_cases hi : i < c.r
  · have hend := lane_end_le c x
    simp [hi, Nat.add_comm i, show x % 64 * c.r + i < 64 * c.r by omega]
  · simp [hi]

end remField

/-! ### The slot's remainder and bits (R99, R100) -/

/-- D1 of REMRD has the occupancy bit in its bit 0 and the run-end bit in its bit 1 (R99). -/
theorem slotBits_eq (occ run : Bool) :
    bitWord occ ||| (bitWord run <<< 1) = BitVec.ofNat 64 (occ.toNat + 2 * run.toNat) := by
  cases occ <;> cases run <;> rfl

/-- REMRD ends with what the slot accessors read. -/
theorem exec_remrd_ok {a : Word} {s : State} (ha : a.toNat < s.cfg.nslots) (hi : s.init = true) :
    exec (.remrd a) s = .next (endOk s (slotRem s.cfg s.mem a.toNat)
      (BitVec.ofNat 64 ((slotOcc s.cfg s.mem a.toNat).toNat + 2 * (slotRun s.cfg s.mem a.toNat).toNat))) := by
  rw [← slotBits_eq]
  exact congrArg _ ((guardedStore_init (Nat.not_le.mpr ha) hi).trans (s.finish_eq_endOk _ _))

/-- Settles O33: what the unpack path reads is, as a number, the slot's lane of the remainder field. -/
theorem remrdDecodesSlot : Obligations.RemrdDecodesSlot := by
  refine ⟨fun _ hop => decode_of_op hop, fun a s hc => ⟨fun ha => congrArg _ (guarded_badArg ha),
    fun ha hi => congrArg _ (guardedStore_uninit (Nat.not_le.mpr ha) hi), fun ha hi => ?_⟩⟩
  rw [← slotRem_toNat hc, BitVec.ofNat_toNat, BitVec.setWidth_eq]
  exact exec_remrd_ok ha hi

/-- The operand check of REMWR against RMASK is the bound 2^r on the remainder (R100). -/
theorem remwr_badArg_iff {c : Config} (hc : c.Legal) (a b : Word) :
    (a.toNat ≥ c.nslots ∨ b.toNat > c.rmask.toNat) ↔ c.nslots ≤ a.toNat ∨ 2 ^ c.r ≤ b.toNat := by
  have := Nat.two_pow_pos c.r
  rw [rmask_toNat hc]
  omega

theorem remwr_operands_pass {c : Config} (hc : c.Legal) {a b : Word} (ha : a.toNat < c.nslots) (hb : b.toNat < 2 ^ c.r) :
    ¬ (a.toNat ≥ c.nslots ∨ b.toNat > c.rmask.toNat) :=
  (remwr_badArg_iff hc a b).not.mpr (not_or.mpr ⟨Nat.not_le.mpr ha, Nat.not_le.mpr hb⟩)

/-- REMWR ends with the store the pack path writes. -/
theorem exec_remwr_ok {a b : Word} {s : State} (hc : s.cfg.Legal) (ha : a.toNat < s.cfg.nslots) (hb : b.toNat < 2 ^ s.cfg.r)
    (hi : s.init = true) :
    exec (.remwr a b) s = .next (endOk { s with mem := remWrite s.cfg s.mem a.toNat b } 0#64 0#64) :=
  congrArg _ ((guardedStore_init (remwr_operands_pass hc ha hb) hi).trans (State.finish_eq_endOk _ _ _))

/-- Settles O34: the store REMWR ends with is the pack path's, which replaces one lane and leaves every other lane and word. -/
theorem remwrReplacesLane : Obligations.RemwrReplacesLane :=
  ⟨fun _ hop => decode_of_op hop, fun a b _ hc hm =>
    ⟨fun hbad => congrArg _ (guarded_badArg ((remwr_badArg_iff hc a b).mpr hbad)),
      fun ha hb hi => congrArg _ (guardedStore_uninit (remwr_operands_pass hc ha hb) hi),
      fun ha hb hi => ⟨_, exec_remwr_ok hc ha hb hi, fun x _ => slotRem_remWrite hc hm _ hb x,
        fun x _ => ⟨slotOcc_remWrite hc _ b x, slotRun_remWrite hc _ b x⟩, fun _ hne hne' => read_remWrite_of_ne b hne hne'⟩⟩⟩

end Sys2Proof.Machine
end

section
/-! PROOF. The run navigator's commands: GRANK, GSEL, RUNEND, FAS and HOMECOV end as the slot-by-slot counts of homes and run-ends say, and
the loop of FAS is the rounds of R115 (42_run_navigator.md R110 to R117). -/

namespace Sys2Proof.Machine

/-! ### The question the navigator's commands begin with, told by the counts (R110, R111, R114) -/

section runEnd

variable {c : Config} {m : Memory} {s e : Nat}

theorem runEndAt_of_noHome (h0 : homesUpTo c m s = 0) : runEndAt c m s = .ok none := by
  rw [← gRank_eq_homesUpTo] at h0
  exact if_pos h0

theorem runEndAt_of_missing (hc : c.Legal) (ht : homesUpTo c m s ≠ 0) (hr : runEndNo c m (homesUpTo c m s) = none) :
    runEndAt c m s = .error .corrupt := by
  have he : gSelect c m (gRank c m s) = c.nslots := by
    rw [gRank_eq_homesUpTo, gSelect_eq_runEndNo_getD hc ht, hr, Option.getD_none]
  rw [← gRank_eq_homesUpTo] at ht
  exact (if_neg ht).trans (if_pos he)

theorem runEndAt_of_runEnd (hc : c.Legal) (ht : homesUpTo c m s ≠ 0) (hr : runEndNo c m (homesUpTo c m s) = some e) :
    runEndAt c m s = .ok (some (e, homesUpTo c m s)) := by
  obtain ⟨hlt, _⟩ := (runEndNo_eq_some_iff ht).mp hr
  have he : gSelect c m (gRank c m s) = e := by
    rw [gRank_eq_homesUpTo, gSelect_eq_runEndNo_getD hc ht, hr, Option.getD_some]
  rw [← gRank_eq_homesUpTo] at ht ⊢
  rw [← he] at hlt ⊢
  exact (if_neg ht).trans (if_neg hlt.ne)

end runEnd

/-! ### The loop of FAS is the rounds of R115 (R115, R117) -/

section fasRounds

variable {c : Config} {m : Memory} {s e fuel : Nat}

theorem fasLoop_of_noHome (h0 : homesUpTo c m s = 0) : fasLoop c m (fuel + 1) s = .ok s := by
  simp only [fasLoop, runEndAt_of_noHome h0]

theorem fasLoop_of_missing (hc : c.Legal) (ht : homesUpTo c m s ≠ 0) (hr : runEndNo c m (homesUpTo c m s) = none) :
    fasLoop c m (fuel + 1) s = .error .corrupt := by
  simp only [fasLoop, runEndAt_of_missing hc ht hr]

/-- A round that finds a run-end compares it with the slot and with the last slot. -/
theorem fasLoop_of_runEnd (hc : c.Legal) (ht : homesUpTo c m s ≠ 0) (hr : runEndNo c m (homesUpTo c m s) = some e) :
    fasLoop c m (fuel + 1) s =
      if s ≤ e then (if e + 1 ≥ c.nslots then .error .overflow else fasLoop c m fuel (e + 1)) else .ok s := by
  simp only [fasLoop, runEndAt_of_runEnd hc ht hr]

/-- With a round for every slot left, the loop answers what the rounds reach. -/
theorem FasRounds.fasLoop_eq {answer : Except Status Nat} (hc : c.Legal) (h : FasRounds c m s answer) (hs : s < c.nslots)
    (hf : c.nslots ≤ s + fuel) : fasLoop c m fuel s = answer := by
  obtain ⟨fuel, rfl⟩ : ∃ k, fuel = k + 1 := ⟨fuel - 1, by omega⟩
  induction h generalizing fuel with
  | noHome s h0 => exact fasLoop_of_noHome h0
  | missing s ht hr => exact fasLoop_of_missing hc ht hr
  | past s e ht hr hse hlast => rw [fasLoop_of_runEnd hc ht hr, if_pos hse, if_pos hlast]
  | covered s e answer ht hr hse hnext _ ih =>
    obtain ⟨fuel, rfl⟩ : ∃ k, fuel = k + 1 := ⟨fuel - 1, by omega⟩
    rw [fasLoop_of_runEnd hc ht hr, if_pos hse, if_neg (Nat.not_le.mpr hnext)]
    exact ih hnext fuel (by omega)
  | free s e ht hr hes => rw [fasLoop_of_runEnd hc ht hr, if_neg (Nat.not_le.mpr hes)]

/-- The rounds end: each goes on only at a higher slot, so a round for every slot left is enough (R117). -/
theorem fasRounds_fasLoop (hc : c.Legal) (hs : s < c.nslots) (hf : c.nslots ≤ s + fuel) :
    FasRounds c m s (fasLoop c m fuel s) := by
  induction fuel generalizing s with
  | zero => omega
  | succ fuel ih =>
    by_cases ht : homesUpTo c m s = 0
    · exact fasLoop_of_noHome ht ▸ .noHome s ht
    cases hr : runEndNo c m (homesUpTo c m s) with
    | none => exact fasLoop_of_missing hc ht hr ▸ .missing s ht hr
    | some e =>
      rw [fasLoop_of_runEnd hc ht hr]
      split
      · next hse =>
        split
        · next hlast => exact .past s e ht hr hse hlast
        · next hnext => exact .covered s e _ ht hr hse (Nat.lt_of_not_le hnext) (ih (Nat.lt_of_not_le hnext) (by omega))
      · next hes => exact .free s e ht hr (Nat.lt_of_not_le hes)

/-- `Fas(s)` is what the rounds from s reach, and nothing else (R115). -/
theorem fasRounds_iff_fas_eq (hc : c.Legal) (hs : s < c.nslots) {answer : Except Status Nat} :
    FasRounds c m s answer ↔ fas c m s = answer :=
  have hf : c.nslots ≤ s + (c.nslots - s) := by omega
  ⟨fun h => h.fasLoop_eq hc hs hf, fun h => h ▸ fasRounds_fasLoop hc hs hf⟩

end fasRounds

/-! ### RUNEND and HOMECOV: one question, two answers (R114, R116) -/

/-- The end of a command that asks for the run-end e, numbered t, of the largest home at or below slot a, and answers `x e` and `y t`. -/
def askRunEnd (s : State) (a : Word) (x y : Nat → Word) : State :=
  if a.toNat ≥ s.cfg.nslots then s.raise .badArg
  else s.withStore fun m =>
    match runEndAt s.cfg m a.toNat with
    | .error st => s.raise st
    | .ok none => s.finish 0#64 0#64
    | .ok (some (e, t)) => s.finish (x e) (y t)

theorem exec_runend_eq (a : Word) (s : State) :
    exec (.runend a) s = .next (askRunEnd s a (BitVec.ofNat 64) (BitVec.ofNat 64)) := rfl

theorem bitWord_decide (p : Prop) [Decidable p] : bitWord (decide p) = if p then 1#64 else 0#64 := by
  simp [bitWord]

theorem exec_homecov_eq (a : Word) (s : State) :
    exec (.homecov a) s = .next (askRunEnd s a (fun e => if a.toNat ≤ e then 1#64 else 0#64) fun _ => 0#64) := by
  simp only [← bitWord_decide]
  rfl

section askRunEnd

variable {a : Word} {s : State} {x y : Nat → Word} {e t : Nat}

theorem askRunEnd_noHome (ha : a.toNat < s.cfg.nslots) (hi : s.init = true) (h : runEndAt s.cfg s.mem a.toNat = .ok none) :
    askRunEnd s a x y = endOk s 0#64 0#64 := by
  refine (guardedStore_init (Nat.not_le.mpr ha) hi).trans ?_
  simp only [h, State.finish_eq_endOk]

theorem askRunEnd_missing (ha : a.toNat < s.cfg.nslots) (hi : s.init = true)
    (h : runEndAt s.cfg s.mem a.toNat = .error .corrupt) : askRunEnd s a x y = endError s .corrupt := by
  refine (guardedStore_init (Nat.not_le.mpr ha) hi).trans ?_
  simp only [h, s.raise_eq_endError (st := .corrupt) rfl]

theorem askRunEnd_runEnd (ha : a.toNat < s.cfg.nslots) (hi : s.init = true)
    (h : runEndAt s.cfg s.mem a.toNat = .ok (some (e, t))) : askRunEnd s a x y = endOk s (x e) (y t) := by
  refine (guardedStore_init (Nat.not_le.mpr ha) hi).trans ?_
  simp only [h, State.finish_eq_endOk]

/-- The ends of a command that asks this question, told by the counts of homes and run-ends. -/
theorem exec_ends_of_askRunEnd {i : Instr} (he : exec i s = .next (askRunEnd s a x y)) (hc : s.cfg.Legal) :
    (s.cfg.nslots ≤ a.toNat → exec i s = .next (endError s .badArg)) ∧
    (a.toNat < s.cfg.nslots → s.init = false → exec i s = .next (endError s .uninit)) ∧
    (a.toNat < s.cfg.nslots → s.init = true →
      (homesUpTo s.cfg s.mem a.toNat = 0 → exec i s = .next (endOk s 0#64 0#64)) ∧
      (homesUpTo s.cfg s.mem a.toNat ≠ 0 → runEndNo s.cfg s.mem (homesUpTo s.cfg s.mem a.toNat) = none →
        exec i s = .next (endError s .corrupt)) ∧
      (∀ e, homesUpTo s.cfg s.mem a.toNat ≠ 0 → runEndNo s.cfg s.mem (homesUpTo s.cfg s.mem a.toNat) = some e →
        exec i s = .next (endOk s (x e) (y (homesUpTo s.cfg s.mem a.toNat))))) := by
  rw [he]
  exact ⟨fun ha => congrArg _ (guarded_badArg ha), fun ha hi => congrArg _ (guardedStore_uninit (Nat.not_le.mpr ha) hi),
    fun ha hi => ⟨fun h0 => congrArg _ (askRunEnd_noHome ha hi (runEndAt_of_noHome h0)),
      fun ht hr => congrArg _ (askRunEnd_missing ha hi (runEndAt_of_missing hc ht hr)),
      fun _ ht hr => congrArg _ (askRunEnd_runEnd ha hi (runEndAt_of_runEnd hc ht hr))⟩⟩

end askRunEnd

/-! ### How GRANK, GSEL and FAS end past the checks of the operand and INIT (R112, R113, R115) -/

/-- The two errors of the search are raised as `endSearch` says (60_exceptions.md R154, R157). -/
theorem State.raise_eq_endSearch (s : State) {st : Status} (h : st = .corrupt ∨ st = .overflow) : s.raise st = endSearch s st := by
  rcases h with rfl | rfl
  · exact s.raise_eq_endError rfl
  · simp [State.raise, State.respond, endSearch, endOverflow, faultAfter, Status.setsFault]

section commands

variable {a : Word} {s : State} {n : Nat} {st : Status} (ha : a.toNat < s.cfg.nslots) (hi : s.init = true)

include ha hi

theorem exec_grank_ok : exec (.grank a) s = .next (endOk s (BitVec.ofNat 64 (homesUpTo s.cfg s.mem a.toNat)) 0#64) :=
  gRank_eq_homesUpTo s.cfg s.mem a.toNat ▸
    congrArg _ ((guardedStore_init (Nat.not_le.mpr ha) hi).trans (s.finish_eq_endOk _ _))

theorem exec_fas_ok (h : fas s.cfg s.mem a.toNat = .ok n) : exec (.fas a) s = .next (endOk s (BitVec.ofNat 64 n) 0#64) := by
  refine congrArg _ ((guardedStore_init (Nat.not_le.mpr ha) hi).trans ?_)
  simp only [h, State.finish_eq_endOk]

theorem exec_fas_error (h : fas s.cfg s.mem a.toNat = .error st) : exec (.fas a) s = .next (endSearch s st) := by
  refine congrArg _ ((guardedStore_init (Nat.not_le.mpr ha) hi).trans ?_)
  simp only [h]
  exact s.raise_eq_endSearch (fas_error h)

end commands

theorem exec_gsel_ok {a : Word} {s : State} (hc : s.cfg.Legal) (ha : 1 ≤ a.toNat) (hi : s.init = true) :
    exec (.gsel a) s = .next (endOk s (BitVec.ofNat 64 ((runEndNo s.cfg s.mem a.toNat).getD s.cfg.nslots)) 0#64) :=
  have ha := Nat.one_le_iff_ne_zero.mp ha
  gSelect_eq_runEndNo_getD hc ha ▸ congrArg _ ((guardedStore_init ha hi).trans (s.finish_eq_endOk _ _))

/-! ### The statements -/

/-- Settles O35: the blocks' popcounts and the rank in the slot's own word add up to the homes at or below the slot. -/
theorem grankCountsHomes : Obligations.GrankCountsHomes :=
  ⟨fun _ hop => decode_of_op hop, fun _ _ =>
    ⟨fun ha => congrArg _ (guarded_badArg ha), fun ha hi => congrArg _ (guardedStore_uninit (Nat.not_le.mpr ha) hi), exec_grank_ok⟩⟩

/-- Settles O36: the scan block by block stops at the run-end of that number, or past the last block. -/
theorem gselFindsRunEnd : Obligations.GselFindsRunEnd :=
  ⟨fun _ hop => decode_of_op hop, fun _ _ hc =>
    ⟨fun ha => congrArg _ (guarded_badArg ha),
      fun ha hi => congrArg _ (guardedStore_uninit (Nat.one_le_iff_ne_zero.mp ha) hi), exec_gsel_ok hc⟩⟩

/-- Settles O37: RUNEND answers the run-end of the largest home and its number, where the counts have one. -/
theorem runendFindsEndOfRun : Obligations.RunendFindsEndOfRun :=
  ⟨fun _ hop => decode_of_op hop, fun a s hc => exec_ends_of_askRunEnd (exec_runend_eq a s) hc⟩

/-- Settles O38: the rounds reach the answer of the loop, and FAS ends with that answer. -/
theorem fasAnswersItsRounds : Obligations.FasAnswersItsRounds := by
  refine ⟨fun _ hop => decode_of_op hop, fun a s hc => ⟨fun ha => congrArg _ (guarded_badArg ha),
    fun ha hi => congrArg _ (guardedStore_uninit (Nat.not_le.mpr ha) hi), fun ha hi => ?_⟩⟩
  cases hf : fas s.cfg s.mem a.toNat with
  | ok n => exact .inl ⟨n, (fasRounds_iff_fas_eq hc ha).mpr hf, exec_fas_ok ha hi hf⟩
  | error st => exact .inr ⟨st, (fasRounds_iff_fas_eq hc ha).mpr hf, exec_fas_error ha hi hf⟩

/-- Settles O39: the rounds reach no answer but the loop's. -/
theorem fasCompletesWhenRoundsReachSlot : Obligations.FasCompletesWhenRoundsReachSlot :=
  fun _ _ _ hc ha hi h => exec_fas_ok ha hi ((fasRounds_iff_fas_eq hc ha).mp h)

/-- Settles O40: HOMECOV compares the slot with the run-end of the largest home, where the counts have one. -/
theorem homecovComparesRunEnd : Obligations.HomecovComparesRunEnd :=
  ⟨fun _ hop => decode_of_op hop, fun a s hc => exec_ends_of_askRunEnd (exec_homecov_eq a s) hc⟩

end Sys2Proof.Machine
end

section
/-! PROOF. The run navigator on a well-formed store: no run-end is missing, FAS finds the lowest empty slot, and HOMECOV says whether the
slot is covered (10_state.md R30, 42_run_navigator.md R115, R116). -/

namespace Sys2Proof.Machine

section wellFormed

variable {c : Config} {m : Memory} {s x : Nat}

/-! ### No run-end is missing (R30, R114) -/

/-- The homes at or below a slot are no more than the run-ends of the filter. -/
theorem StoreWellFormed.runEndNo_ne_none (hw : StoreWellFormed c m) (hs : s < c.nslots) (ht : homesUpTo c m s ≠ 0) :
    runEndNo c m (homesUpTo c m s) ≠ none := by
  rw [Ne, runEndNo_eq_none_iff ht, Nat.not_lt, homesUpTo_eq_countBelow, hw.balanced.total]
  exact countBelow_mono hs

/-- On a well-formed store the question has two answers: no home at or below the slot, or a run-end that is at or above the slot exactly
when the slot is covered (R116). -/
theorem StoreWellFormed.runEndAt_cases (hc : c.Legal) (hw : StoreWellFormed c m) (hs : s < c.nslots) :
    (runEndAt c m s = .ok none ∧ slotCovered c m s = false) ∨
    (∃ e t, runEndAt c m s = .ok (some (e, t)) ∧ (s ≤ e ↔ slotCovered c m s = true)) := by
  by_cases ht : homesUpTo c m s = 0
  · have hrun := runEndAt_of_noHome ht
    exact .inl ⟨hrun, (slotCovered_eq_false_iff hw hs).mpr (not_inRun_of_runEndAt_none hrun)⟩
  · obtain ⟨e, hr⟩ := Option.ne_none_iff_exists'.mp (hw.runEndNo_ne_none hs ht)
    have hrun := runEndAt_of_runEnd hc ht hr
    refine .inr ⟨e, _, hrun, fun hse => (slotCovered_iff hw hs).mpr (inRun_of_runEndAt hc hrun (le_refl s) hse), fun hcov => ?_⟩
    by_contra hes
    exact not_inRun_of_runEndAt hc hrun (Nat.lt_of_not_le hes) ((slotCovered_iff hw hs).mp hcov)

/-! ### The lowest empty slot (R115) -/

/-- On a well-formed store the rounds fail in one way: by OVERFLOW, every slot from the first one up being covered. -/
theorem FasRounds.error_of_wellFormed {st : Status} (hc : c.Legal) (hw : StoreWellFormed c m) (hs : s < c.nslots)
    (h : FasRounds c m s (.error st)) : st = .overflow ∧ ∀ x, s ≤ x → x < c.nslots → slotCovered c m x = true := by
  generalize hans : Except.error st = answer at h
  induction h with
  | noHome => cases hans
  | free => cases hans
  | missing s ht hr => exact absurd hr (hw.runEndNo_ne_none hs ht)
  | past s e ht hr _ hlast =>
    exact ⟨Except.error.inj hans, fun x hsx hx =>
      (slotCovered_iff hw hx).mpr (inRun_of_runEndAt hc (runEndAt_of_runEnd hc ht hr) hsx (by omega))⟩
  | covered s e answer ht hr _ hnext _ ih =>
    obtain ⟨hst, hhigh⟩ := ih hnext hans
    refine ⟨hst, fun x hsx hx => ?_⟩
    rcases Nat.lt_or_ge e x with hex | hxe
    · exact hhigh x hex hx
    · exact (slotCovered_iff hw hx).mpr (inRun_of_runEndAt hc (runEndAt_of_runEnd hc ht hr) hsx hxe)

/-- On a well-formed store `Fas(s)` is the lowest empty slot at or above s, or OVERFLOW where every slot from s up is covered. -/
theorem StoreWellFormed.fas_cases (hc : c.Legal) (hw : StoreWellFormed c m) (hs : s < c.nslots) :
    (∃ n, fas c m s = .ok n ∧ s ≤ n ∧ n < c.nslots ∧ slotCovered c m n = false ∧
      ∀ x, s ≤ x → x < n → slotCovered c m x = true) ∨
    (fas c m s = .error .overflow ∧ ∀ x, s ≤ x → x < c.nslots → slotCovered c m x = true) := by
  cases hf : fas c m s with
  | ok n =>
    obtain ⟨hsn, hn⟩ := fas_bounds hs hf
    obtain ⟨hfree, hcov⟩ := fas_spec hc hf
    exact .inl ⟨n, rfl, hsn, hn, (slotCovered_eq_false_iff hw hn).mpr hfree,
      fun x hsx hxn => (slotCovered_iff hw (hxn.trans hn)).mpr (hcov x hsx hxn)⟩
  | error st =>
    obtain ⟨rfl, hcov⟩ := FasRounds.error_of_wellFormed hc hw hs ((fasRounds_iff_fas_eq hc hs).mpr hf)
    exact .inr ⟨rfl, hcov⟩

/-! ### Covered slots (R116) -/

/-- A covered slot is a home, or lies in the run of a lower home. -/
theorem StoreWellFormed.slotCovered_iff_home_or_lower_run (hw : StoreWellFormed c m) (hx : x < c.nslots) :
    slotCovered c m x = true ↔ slotOcc c m x = true ∨ ∃ u ∈ runs c m, u.home < x ∧ u.first ≤ x ∧ x ≤ u.last := by
  rw [slotCovered_iff hw hx]
  simp only [mem_runs_iff hw]
  constructor
  · intro hin
    obtain ⟨u, hu, hfirst, hlast⟩ := (hw.balanced.inRun_iff hx).mp hin
    rcases (hu.home_le.trans hfirst).eq_or_lt with rfl | hlower
    · exact .inl hu.home
    · exact .inr ⟨u, hu, hlower, hfirst, hlast⟩
  · rintro (hocc | ⟨u, hu, _, hfirst, hlast⟩)
    · by_contra hfree
      obtain ⟨hno, _⟩ := hw.balanced.unmarked_of_not_inRun hx hfree
      cases hocc.symm.trans hno
    · exact (hw.balanced.inRun_iff hx).mpr ⟨u, hu, hfirst, hlast⟩

end wellFormed

/-! ### The statements -/

/-- Settles O49: the lowest empty slot is the one FAS answers, since there is only one lowest. -/
theorem fasFindsLowestEmptySlot : Obligations.FasFindsLowestEmptySlot := by
  intro a s hc hi hw ha
  rcases hw.fas_cases hc ha with ⟨n', hf, han', hn', hfree', hcov'⟩ | ⟨hf, hcov'⟩
  · refine ⟨fun n han _ hfree hcov => ?_, fun hall => absurd (hall n' han' hn') (Bool.eq_false_iff.mp hfree')⟩
    have hle : n ≤ n' := Nat.le_of_not_lt fun h => Bool.eq_false_iff.mp hfree' (hcov n' han' h)
    have hge : n' ≤ n := Nat.le_of_not_lt fun h => Bool.eq_false_iff.mp hfree (hcov' n han h)
    exact Nat.le_antisymm hge hle ▸ exec_fas_ok ha hi hf
  · exact ⟨fun n han hn hfree _ => absurd (hcov' n han hn) (Bool.eq_false_iff.mp hfree), fun _ => exec_fas_error ha hi hf⟩

/-- Settles O50: the run-end of the largest home is at or above the slot exactly when the slot is covered. -/
theorem homecovMeansCovered : Obligations.HomecovMeansCovered := by
  intro a s hc hi hw ha
  refine ⟨?_, hw.slotCovered_iff_home_or_lower_run ha⟩
  rw [exec_homecov_eq]
  rcases hw.runEndAt_cases hc ha with ⟨hrun, hfree⟩ | ⟨e, t, hrun, hcov⟩
  · rw [hfree]
    exact congrArg _ (askRunEnd_noHome ha hi hrun)
  · simp only [← hcov]
    exact congrArg _ (askRunEnd_runEnd ha hi hrun)

end Sys2Proof.Machine
end

section
/-! PROOF. The hash split and the registers: SPLIT cuts the hash by division and remainder, RDCSR answers the nine registers as numbers, and
CLEAR zeroes the store, in every state (43_filter_ops.md R130, R131, R139, R140). -/

namespace Sys2Proof.Machine

/-! ### The hash split by division and remainder (R130) -/

section hashSplit

variable {c : Config} (hc : c.Legal) (h : Word)

include hc

theorem hashHome_toNat_eq_div_mod : (hashHome c h).toNat = h.toNat / 2 ^ c.r % 2 ^ c.q := by
  rw [hashHome_toNat hc, Config.p, Nat.pow_add, Nat.mod_mul_left_div_self]

theorem hashHome_eq_ofNat : hashHome c h = BitVec.ofNat 64 (h.toNat / 2 ^ c.r % 2 ^ c.q) := by
  rw [← hashHome_toNat_eq_div_mod hc, BitVec.ofNat_toNat, BitVec.setWidth_eq]

theorem hashRem_eq_ofNat : hashRem c h = BitVec.ofNat 64 (h.toNat % 2 ^ c.r) := by
  rw [← hashRem_toNat hc, BitVec.ofNat_toNat, BitVec.setWidth_eq]

end hashSplit

/-- Two hashes have the same quotient and the same remainder exactly when they agree in their low P bits. -/
theorem hashSplit_eq_iff {c : Config} (hc : c.Legal) (h x : Word) :
    (hashHome c h).toNat = (hashHome c x).toNat ∧ hashRem c h = hashRem c x ↔ h.toNat % 2 ^ c.p = x.toNat % 2 ^ c.p := by
  have hdvd : 2 ^ c.r ∣ 2 ^ c.p := Nat.pow_dvd_pow 2 (Nat.le_add_left _ _)
  rw [← BitVec.toNat_inj, hashHome_toNat hc, hashHome_toNat hc, hashRem_toNat hc, hashRem_toNat hc,
    ← Nat.mod_mod_of_dvd h.toNat hdvd, ← Nat.mod_mod_of_dvd x.toNat hdvd]
  exact (Nat.ext_div_mod_iff _ _ _).symm

/-- Settles O41: SPLIT answers the two parts of the hash, which are its quotient by 2^r in q bits and its remainder. -/
theorem splitCutsHash : Obligations.SplitCutsHash := by
  refine ⟨fun _ hop => decode_of_op hop, fun a s hc => ?_⟩
  rw [← hashHome_eq_ofNat hc, ← hashRem_eq_ofNat hc, ← s.finish_eq_endOk]
  rfl

/-! ### The registers as numbers (10_state.md R25, R26) -/

/-- The values of CSR 0 to 8. -/
def csrNumbers (s : State) : List Nat :=
  [s.cfg.q, s.cfg.r, s.cfg.q + s.cfg.r, 2 ^ (s.cfg.q + s.cfg.r) - 2 ^ s.cfg.r, 2 ^ s.cfg.r - 1, 2 ^ (s.cfg.q - 6), 2 ^ s.cfg.q,
    2 ^ (s.cfg.q - 6) * (s.cfg.r + 3), s.init.toNat + 2 * s.fault.toNat]

theorem qmask_toNat {c : Config} (hc : c.Legal) : c.qmask.toNat = 2 ^ (c.q + c.r) - 2 ^ c.r := by
  have hsub : 2 ^ (c.q + c.r) - 2 ^ c.r = (2 ^ c.q - 1) * 2 ^ c.r := by rw [Nat.pow_add, Nat.sub_mul, Nat.one_mul]
  rw [hsub]
  refine Nat.eq_of_testBit_eq fun i => ?_
  rw [testBit_qmask hc, Nat.testBit_mul_two_pow, Nat.testBit_two_pow_sub_one, Config.p, ← Bool.decide_and]
  exact decide_eq_decide.mpr (by omega)

theorem nblocks_eq_two_pow {c : Config} (hc : c.Legal) : c.nblocks = 2 ^ (c.q - 6) :=
  Nat.pow_div hc.1 (by decide)

theorem flagsWord_eq (init fault : Bool) : flagsWord init fault = BitVec.ofNat 64 (init.toNat + 2 * fault.toNat) := by
  cases init <;> cases fault <;> rfl

/-- The registers as the words of their numbers. -/
theorem csrValue_eq {s : State} (hc : s.cfg.Legal) (n : Nat) : csrValue s n = (csrNumbers s)[n]?.map (BitVec.ofNat 64) := by
  have hq : s.cfg.qmask = BitVec.ofNat 64 (2 ^ (s.cfg.q + s.cfg.r) - 2 ^ s.cfg.r) := by
    rw [← qmask_toNat hc, BitVec.ofNat_toNat, BitVec.setWidth_eq]
  match n with
  | 0 | 1 | 2 | 4 | 6 => rfl
  | 3 => exact congrArg some hq
  | 5 => exact congrArg (fun b => some (BitVec.ofNat 64 b)) (nblocks_eq_two_pow hc)
  | 7 => exact congrArg (fun b => some (BitVec.ofNat 64 (b * (s.cfg.r + 3)))) (nblocks_eq_two_pow hc)
  | 8 => exact congrArg some (flagsWord_eq s.init s.fault)
  | n + 9 => rfl

theorem exec_rdcsr_none {a : Word} {s : State} (h : csrValue s a.toNat = none) : exec (.rdcsr a) s = .next (endError s .badArg) := by
  rw [← s.raise_eq_endError rfl]
  simp only [exec, execRdcsr, h]

theorem exec_rdcsr_some {a v : Word} {s : State} (h : csrValue s a.toNat = some v) : exec (.rdcsr a) s = .next (endOk s v 0#64) := by
  rw [← s.finish_eq_endOk]
  simp only [exec, execRdcsr, h]

/-- Settles O47: the registers are those numbered 0 to 8, and their words are those of the numbers R25 and R26 give. -/
theorem rdcsrReadsRegisters : Obligations.RdcsrReadsRegisters := by
  refine ⟨fun _ hop => decode_of_op hop, fun a s hc => ⟨fun ha => ?_, fun v hv => ?_⟩⟩
  · exact exec_rdcsr_none ((csrValue_eq_none_iff s _).mpr ha)
  · have hv : (csrNumbers s)[a.toNat]? = some v := hv
    exact exec_rdcsr_some (by rw [csrValue_eq hc, hv, Option.map_some])

/-! ### CLEAR (R139) -/

theorem exec_clear_eq (s : State) : exec .clear s = .next (endOk { s with mem := Memory.zero, init := true } 0#64 0#64) :=
  congrArg _ (State.finish_eq_endOk _ _ _)

/-- Settles O46: the store CLEAR leaves lists no word, so every address reads zero. -/
theorem clearZeroesStore : Obligations.ClearZeroesStore :=
  ⟨fun _ hop => decode_of_op hop, fun s => ⟨Memory.zero, exec_clear_eq s, Memory.zero_wf, Memory.read_zero⟩⟩

end Sys2Proof.Machine
end

section
/-! PROOF. INSERT on any store: what turns it away, and what it does to the slots and the words of the store in a free and in an obstructed
home (43_filter_ops.md R132 to R136). -/

namespace Sys2Proof.Machine

/-! ### The words written (20_memory.md R42, R45) -/

section words

variable {c : Config} {m : Memory} {x addr : Nat}

theorem not_mem_slotWords_iff :
    addr ∉ slotWords c x ↔ addr ≠ laneAddr c x ∧ (straddles c x = true → addr ≠ laneAddr c x + 1) ∧ addr ≠ runWord c (x / 64) := by
  unfold slotWords
  cases straddles c x <;> simp

theorem read_remWrite_of_not_mem (v : Word) (h : addr ∉ slotWords c x) : (remWrite c m x v).read addr = m.read addr := by
  obtain ⟨hlane, hnext, _⟩ := not_mem_slotWords_iff.mp h
  exact read_remWrite_of_ne v hlane hnext

theorem read_setRun_of_not_mem (b : Bool) (h : addr ∉ slotWords c x) : (setRun c m x b).read addr = m.read addr := by
  obtain ⟨_, _, hrun⟩ := not_mem_slotWords_iff.mp h
  exact read_setRun_of_ne b hrun

/-- The shift writes the words of the slots it moves to. -/
theorem read_shiftRight_of_not_mem {n k : Nat} (hn : n ≤ k) (h : ∀ x, k < x + n → x ≤ k → addr ∉ slotWords c x) :
    (shiftRight c n k m).read addr = m.read addr := by
  induction n generalizing k m with
  | zero => rfl
  | succ n ih =>
    have hk : addr ∉ slotWords c k := h k (by omega) (le_refl k)
    rw [shiftRight, ih (by omega) fun x h1 h2 => h x (by omega) (by omega), copySlot, read_setRun_of_not_mem _ hk,
      read_remWrite_of_not_mem _ hk]

theorem read_insertEmptyHome_of_not_mem {h0 : Nat} {h1 : Word} (h : addr ∉ slotWords c h0) (hocc : addr ≠ occWord c (h0 / 64)) :
    (insertEmptyHome c m h0 h1).read addr = m.read addr := by
  rw [insertEmptyHome, read_setOcc_of_ne _ hocc, read_setRun_of_not_mem _ h, read_remWrite_of_not_mem _ h]

theorem read_insertAfter_of_not_mem {h0 e n : Nat} {h1 : Word} (hn : e + 1 ≤ n)
    (h : ∀ x, e + 1 ≤ x → x ≤ n → addr ∉ slotWords c x) (hrun : addr ≠ runWord c (e / 64)) (hocc : addr ≠ occWord c (h0 / 64)) :
    (insertAfter c m h0 h1 e n).read addr = m.read addr := by
  have hplace : addr ∉ slotWords c (e + 1) := h (e + 1) (le_refl _) hn
  have hrem : (remWrite c (shiftRight c (n - (e + 1)) n m) (e + 1) h1).read addr = m.read addr := by
    rw [read_remWrite_of_not_mem _ hplace, read_shiftRight_of_not_mem (by omega) fun x h1 h2 => h x (by omega) h2]
  simp only [insertAfter]
  rw [read_setOcc_of_ne _ hocc, read_setRun_of_not_mem _ hplace]
  split
  · rw [Nat.add_sub_cancel, read_setRun_of_ne _ hrun, hrem]
  · exact hrem

end words

/-! ### INSERT on the store, told by its two questions (R132 to R134) -/

section insertStore

variable {c : Config} {m : Memory} {h : Word}

theorem insertStore_of_runEndAt_error {st : Status} (hr : runEndAt c m (hashHome c h).toNat = .error st) :
    insertStore c m h = .error st := by
  simp only [insertStore, hr]

/-- The home is free when no home lies at or below it, or the run-end of the largest one is below it (R133). -/
theorem insertStore_of_free (hr : runEndAt c m (hashHome c h).toNat = .ok none ∨
      ∃ e t, runEndAt c m (hashHome c h).toNat = .ok (some (e, t)) ∧ e < (hashHome c h).toNat) :
    insertStore c m h = .ok (insertEmptyHome c m (hashHome c h).toNat (hashRem c h)) := by
  rcases hr with hr | ⟨e, t, hr, he⟩
  · simp only [insertStore, hr]
  · simp only [insertStore, hr, if_pos he]

/-- In an obstructed home the search for a free slot decides (R134). -/
theorem insertStore_of_obstructed {e t : Nat} (hr : runEndAt c m (hashHome c h).toNat = .ok (some (e, t)))
    (he : (hashHome c h).toNat ≤ e) :
    insertStore c m h =
      (fas c m (hashHome c h).toNat).map (insertAfter c m (hashHome c h).toNat (hashRem c h) e) := by
  simp only [insertStore, hr, if_neg (Nat.not_lt.mpr he)]
  cases fas c m (hashHome c h).toNat <;> rfl

end insertStore

section exec

variable {h : Word} {s : State} (hi : s.init = true)

include hi

theorem exec_insert_ok {m : Memory} (h' : insertStore s.cfg s.mem h = .ok m) :
    exec (.insert h) s = .next (endOk { s with mem := m } 0#64 0#64) := by
  refine congrArg _ ((State.withStore_init hi _).trans ?_)
  simp only [h', State.finish_eq_endOk]

theorem exec_insert_error {st : Status} (h' : insertStore s.cfg s.mem h = .error st) :
    exec (.insert h) s = .next (endSearch s st) := by
  refine congrArg _ ((State.withStore_init hi _).trans ?_)
  simp only [h']
  exact s.raise_eq_endSearch (insertStore_error h')

end exec

/-! ### The statements -/

/-- Settles O42: INSERT raises what its two questions raise, before it has written anything. -/
theorem insertTurnedAway : Obligations.InsertTurnedAway := by
  refine fun h s hc => ⟨exec_of_uninit rfl rfl, fun hi ht hr => ?_, fun e st hi ht hr he hf => ?_⟩
  · exact exec_insert_error hi (insertStore_of_runEndAt_error (runEndAt_of_missing hc ht hr))
  · refine exec_insert_error hi ((insertStore_of_obstructed (runEndAt_of_runEnd hc ht hr) he).trans ?_)
    rw [(fasRounds_iff_fas_eq hc (hashHome_lt hc h)).mp hf]
    rfl

/-- Settles O43: the home is free, so INSERT ends with the store of R133. -/
theorem insertIntoEmptyHome : Obligations.InsertIntoEmptyHome := by
  refine ⟨fun _ hop => decode_of_op hop, fun h s h0 hc hm hi hh hfree => ?_⟩
  rw [← hashHome_toNat_eq_div_mod hc] at hh
  subst hh
  have hrun : runEndAt s.cfg s.mem (hashHome s.cfg h).toNat = .ok none ∨
      ∃ e t, runEndAt s.cfg s.mem (hashHome s.cfg h).toNat = .ok (some (e, t)) ∧ e < (hashHome s.cfg h).toNat := by
    by_cases ht : homesUpTo s.cfg s.mem (hashHome s.cfg h).toNat = 0
    · exact .inl (runEndAt_of_noHome ht)
    · obtain ⟨e, hr, he⟩ := hfree.resolve_left ht
      exact .inr ⟨e, _, runEndAt_of_runEnd hc ht hr, he⟩
  refine ⟨_, exec_insert_ok hi (insertStore_of_free hrun), fun x _ => ⟨?_, slotRun_insertEmptyHome hc hm _ _ x,
    slotOcc_insertEmptyHome hc hm _ _ x⟩, fun _ => read_insertEmptyHome_of_not_mem⟩
  rw [← hashRem_eq_ofNat hc]
  exact slotRem_insertEmptyHome hc hm _ (hashRem_lt _ h) x

/-- Settles O44: the search reaches a slot, so INSERT ends with the store of R134 to R136. -/
theorem insertIntoObstructedHome : Obligations.InsertIntoObstructedHome := by
  intro h s h0 e n hc hm hi hh ht hr he hf
  rw [← hashHome_toNat_eq_div_mod hc] at hh
  subst hh
  have hrun := runEndAt_of_runEnd hc ht hr
  have hfas := (fasRounds_iff_fas_eq hc (hashHome_lt hc h)).mp hf
  obtain ⟨hen, hn⟩ := fas_covered (hashHome_lt hc h) hrun he hfas
  have hstore := (insertStore_of_obstructed hrun he).trans (congrArg _ hfas)
  refine ⟨_, exec_insert_ok hi hstore, hen, hn, fun x _ => ⟨?_, slotRun_insertAfter hc hm _ _ hen x,
    slotOcc_insertAfter hc hm _ _ x⟩, fun _ => read_insertAfter_of_not_mem hen⟩
  rw [← hashRem_eq_ofNat hc]
  exact slotRem_insertAfter hc hm _ (hashRem_lt _ h) hen x

end Sys2Proof.Machine
end

section
/-! PROOF. MAYCON on any store: the walk backward in closed form, and how the command ends (43_filter_ops.md R137). -/

namespace Sys2Proof.Machine

section maycon

variable {c : Config} {m : Memory} {h : Word}

theorem walkBack_zero_iff {h0 : Nat} {h1 : Word} : walkBack c m h0 h1 0 = true ↔ h0 = 0 ∧ slotRem c m 0 = h1 := by
  unfold walkBack
  split
  · next hpos => exact iff_of_false Bool.false_ne_true fun ⟨hz, _⟩ => hpos.ne' hz
  · next hz => rw [decide_eq_true_iff, and_iff_right (Nat.eq_zero_of_not_pos hz)]

/-- One step of the walk: not below the home, the remainder ends it, and a run-end right below cuts it off. -/
theorem walkBack_succ_iff {h0 l : Nat} {h1 : Word} :
    walkBack c m h0 h1 (l + 1) = true ↔
      h0 ≤ l + 1 ∧ (slotRem c m (l + 1) = h1 ∨ slotRun c m l = false ∧ walkBack c m h0 h1 l = true) := by
  rw [walkBack]
  by_cases hlow : l + 1 < h0
  · simp [hlow]
  by_cases heq : slotRem c m (l + 1) = h1
  · simp [hlow, heq, Nat.not_lt.mp hlow]
  · cases slotRun c m l <;> simp [hlow, heq, Nat.not_lt.mp hlow]

/-- The walk from slot e finds the remainder in a slot from the home up to e that no run-end below e cuts off. -/
theorem walkBack_iff {h0 e : Nat} {h1 : Word} :
    walkBack c m h0 h1 e = true ↔ ∃ l, h0 ≤ l ∧ l ≤ e ∧ slotRem c m l = h1 ∧ ∀ k, l ≤ k → k < e → slotRun c m k = false := by
  induction e with
  | zero =>
    rw [walkBack_zero_iff]
    constructor
    · rintro ⟨hz, heq⟩
      exact ⟨0, hz.le, le_refl 0, heq, fun k _ hk => absurd hk (Nat.not_lt_zero k)⟩
    · rintro ⟨l, hl, hle, heq, _⟩
      obtain rfl := Nat.le_zero.mp hle
      exact ⟨Nat.le_zero.mp hl, heq⟩
  | succ e ih =>
    rw [walkBack_succ_iff, ih]
    constructor
    · rintro ⟨hhome, heq | ⟨hrun, l, hl, hle, heq, hcut⟩⟩
      · exact ⟨e + 1, hhome, le_refl _, heq, fun k hk hke => absurd hk (Nat.not_le_of_lt hke)⟩
      · refine ⟨l, hl, Nat.le_succ_of_le hle, heq, fun k hk hke => ?_⟩
        rcases Nat.lt_succ_iff_lt_or_eq.mp hke with hlt | rfl
        · exact hcut k hk hlt
        · exact hrun
    · rintro ⟨l, hl, hle, heq, hcut⟩
      refine ⟨hl.trans hle, ?_⟩
      rcases Nat.lt_or_eq_of_le hle with hlt | rfl
      · exact .inr ⟨hcut e (by omega) (by omega), l, hl, by omega, heq, fun k hk hke => hcut k hk (by omega)⟩
      · exact .inl heq

/-! ### MAYCON on the store, told by its two questions -/

theorem homesUpTo_ne_zero_of_home {x : Nat} (ho : slotOcc c m x = true) : homesUpTo c m x ≠ 0 := by
  rw [homesUpTo_eq_countBelow, countBelow_succ_of_true ho]
  exact Nat.succ_ne_zero _

theorem mayContain_of_not_home (ho : slotOcc c m (hashHome c h).toNat = false) : mayContain c m h = .ok false := by
  simp [mayContain, ho]

theorem mayContain_of_missing (hc : c.Legal) (ho : slotOcc c m (hashHome c h).toNat = true)
    (hr : runEndNo c m (homesUpTo c m (hashHome c h).toNat) = none) : mayContain c m h = .error .corrupt := by
  simp only [mayContain, if_pos ho, runEndAt_of_missing hc (homesUpTo_ne_zero_of_home ho) hr]

theorem mayContain_of_runEnd (hc : c.Legal) (ho : slotOcc c m (hashHome c h).toNat = true) {e : Nat}
    (hr : runEndNo c m (homesUpTo c m (hashHome c h).toNat) = some e) :
    mayContain c m h = .ok (walkBack c m (hashHome c h).toNat (hashRem c h) e) := by
  simp only [mayContain, if_pos ho, runEndAt_of_runEnd hc (homesUpTo_ne_zero_of_home ho) hr]

end maycon

section exec

variable {h : Word} {s : State} (hi : s.init = true)

include hi

theorem exec_maycon_ok {found : Bool} (h' : mayContain s.cfg s.mem h = .ok found) :
    exec (.maycon h) s = .next (endOk s (if found then 1#64 else 0#64) 0#64) := by
  refine congrArg _ ((State.withStore_init hi _).trans ?_)
  simp only [h', State.finish_eq_endOk, bitWord]

theorem exec_maycon_corrupt (h' : mayContain s.cfg s.mem h = .error .corrupt) :
    exec (.maycon h) s = .next (endError s .corrupt) := by
  refine congrArg _ ((State.withStore_init hi _).trans ?_)
  simp only [h', s.raise_eq_endError (st := .corrupt) rfl]

end exec

/-- Settles O45: MAYCON answers its walk, which starts at the run-end of the home. -/
theorem mayconWalksRun : Obligations.MayconWalksRun := by
  refine ⟨fun _ hop => decode_of_op hop, fun h s h0 hc hh => ⟨exec_of_uninit rfl rfl, fun hi => ?_⟩⟩
  rw [← hashHome_toNat_eq_div_mod hc] at hh
  subst hh
  refine ⟨fun ho => exec_maycon_ok hi (mayContain_of_not_home ho), fun ho hr => exec_maycon_corrupt hi (mayContain_of_missing hc ho hr),
    fun e ho hr => ⟨_, exec_maycon_ok hi (mayContain_of_runEnd hc ho hr), ?_⟩⟩
  rw [← hashRem_eq_ofNat hc]
  exact walkBack_iff

end Sys2Proof.Machine
end

section
/-! PROOF. The filter's guarantees: after CLEAR nothing is stored, INSERT on a well-formed store overflows only when it must, and MAYCON is
membership, exact after CLEAR and successful INSERTs (43_filter_ops.md R137 to R139). -/

namespace Sys2Proof.Machine

/-! ### The cleared filter (R139) -/

section zero

variable {c : Config}

@[simp] theorem homesUpTo_zero (x : Nat) : homesUpTo c Memory.zero x = 0 := by simp [homesUpTo]

@[simp] theorem runEndNo_zero (t : Nat) : runEndNo c Memory.zero t = none := by simp [runEndNo]

@[simp] theorem storedAt_zero (x : Nat) : storedAt c Memory.zero x = [] := storedAt_of_not_home storeWellFormed_zero (slotOcc_zero x)

theorem fas_zero (hc : c.Legal) {x : Nat} (hx : x < c.nslots) : fas c Memory.zero x = .ok x :=
  (fasRounds_iff_fas_eq hc hx).mp (.noHome x (homesUpTo_zero x))

end zero

/-- CLEAR sets INIT. -/
theorem exec_clear_init {s t : State} (he : exec .clear s = .next t) : t.init = true :=
  (congrArg State.init (Host.Outcome.next.inj he)).symm

/-- Settles O48: in the zero store no slot is a home and none a run-end. -/
theorem clearedFilterIsEmpty : Obligations.ClearedFilterIsEmpty := by
  intro s t hc he
  obtain ⟨hcfg, hmem⟩ := exec_clear_store he
  have hi := exec_clear_init he
  have hc : t.cfg.Legal := hcfg ▸ hc
  refine ⟨fun h => exec_maycon_ok hi (mayContain_of_not_home ?_), fun a ha => ⟨?_, ?_⟩, fun a ha => ?_⟩
  · rw [hmem, slotOcc_zero]
  · have hfas := exec_fas_ok ha hi (hmem ▸ fas_zero hc ha)
    rwa [BitVec.ofNat_toNat, BitVec.setWidth_eq] at hfas
  · have hgrank := exec_grank_ok ha hi
    rwa [hmem, homesUpTo_zero] at hgrank
  · have hgsel := exec_gsel_ok hc ha hi
    rwa [hmem, runEndNo_zero, Option.getD_none] at hgsel

section wellFormed

variable {c : Config} {m : Memory}

/-! ### INSERT on a well-formed store (R138 (f)) -/

/-- INSERT writes a store, some slot from its home up being empty; or it overflows, every one of them being covered. -/
theorem StoreWellFormed.insertStore_cases (hc : c.Legal) (hw : StoreWellFormed c m) (h : Word) :
    (∃ m', insertStore c m h = .ok m' ∧ ∃ x, (hashHome c h).toNat ≤ x ∧ x < c.nslots ∧ slotCovered c m x = false) ∨
    (insertStore c m h = .error .overflow ∧ ∀ x, (hashHome c h).toNat ≤ x → x < c.nslots → slotCovered c m x = true) := by
  have hlt := hashHome_lt hc h
  rcases hw.runEndAt_cases hc hlt with ⟨hr, hfree⟩ | ⟨e, t, hr, hcov⟩
  · exact .inl ⟨_, insertStore_of_free (.inl hr), _, le_refl _, hlt, hfree⟩
  rcases Nat.lt_or_ge e (hashHome c h).toNat with hlow | he
  · exact .inl ⟨_, insertStore_of_free (.inr ⟨e, t, hr, hlow⟩), _, le_refl _, hlt,
      Bool.eq_false_iff.mpr (hcov.not.mp (Nat.not_le.mpr hlow))⟩
  rw [insertStore_of_obstructed hr he]
  rcases hw.fas_cases hc hlt with ⟨n, hf, hle, hn, hfree, _⟩ | ⟨hf, hall⟩
  · exact .inl ⟨_, congrArg _ hf, n, hle, hn, hfree⟩
  · exact .inr ⟨congrArg _ hf, hall⟩

/-! ### MAYCON on a well-formed store (R137) -/

/-- The run-end of a home's number is the last slot of its run. -/
theorem runEndNo_of_isRun {u : Run} (hu : IsRun (slotOcc c m) (slotRun c m) c.nslots u) :
    runEndNo c m (homesUpTo c m u.home) = some u.last := by
  rw [runEndNo_eq_some_iff (homesUpTo_ne_zero_of_home hu.home), hu.countBelow_eq hu.first_le (le_refl _), homesUpTo_eq_countBelow,
    countBelow_succ_of_true hu.home]
  exact ⟨hu.last_lt, hu.last, rfl⟩

/-- The walk from the end of a run stops at its first slot: at the home, or at the run-end right below. -/
theorem walkBack_iff_mem_storedAt (hw : StoreWellFormed c m) {u : Run} (hu : IsRun (slotOcc c m) (slotRun c m) c.nslots u) {v : Word} :
    walkBack c m u.home v u.last = true ↔ v ∈ storedAt c m u.home := by
  simp only [walkBack_iff, storedAt_of_isRun hw hu, List.mem_map, List.mem_range'_1]
  refine exists_congr fun l => ⟨fun ⟨hhome, hlast, heq, hcut⟩ => ⟨⟨?_, by omega⟩, heq⟩, fun ⟨⟨hfirst, hlast⟩, heq⟩ => ?_⟩
  · rcases hu.start with hs | hs
    · exact hs ▸ hhome
    · by_contra hlt
      have hfirst := hu.first_le
      cases hs.symm.trans (hcut (u.first - 1) (by omega) (by omega))
  · exact ⟨hu.home_le.trans hfirst, by omega, heq, fun k hk hke => hu.inner k (hfirst.trans hk) hke⟩

theorem StoreWellFormed.mayContain_eq (hc : c.Legal) (hw : StoreWellFormed c m) (h : Word) :
    mayContain c m h = .ok (decide (hashRem c h ∈ storedAt c m (hashHome c h).toNat)) := by
  cases ho : slotOcc c m (hashHome c h).toNat with
  | false =>
    rw [mayContain_of_not_home ho, storedAt_of_not_home hw ho]
    rfl
  | true =>
    obtain ⟨u, hu, hhome⟩ := hw.balanced.exists_isRun_of_home ho (hashHome_lt hc h)
    rw [mayContain_of_runEnd hc ho (hhome ▸ runEndNo_of_isRun hu), ← hhome]
    exact congrArg _ (Bool.eq_iff_iff.mpr ((walkBack_iff_mem_storedAt hw hu).trans decide_eq_true_iff.symm))

end wellFormed

/-- Settles O52: on a well-formed store INSERT overflows when every slot from its home up is covered, and is OK when one is empty. -/
theorem insertOverflowsExactlyWhenFull : Obligations.InsertOverflowsExactlyWhenFull := by
  intro h s t hc hi hw he
  rcases hw.insertStore_cases hc h with ⟨m, hm, x, hle, hx, hfree⟩ | ⟨hm, hall⟩
  · obtain rfl := Host.Outcome.next.inj ((exec_insert_ok hi hm).symm.trans he)
    exact ⟨.inl rfl, iff_of_false (by simp [endOk]) fun hall => Bool.eq_false_iff.mp hfree (hall x hle hx)⟩
  · obtain rfl := Host.Outcome.next.inj ((exec_insert_error hi hm).symm.trans he)
    exact ⟨.inr rfl, iff_of_true rfl hall⟩

/-- Settles O53: the walk from the end of the home's run meets exactly the home's remainders. -/
theorem mayconIsMembership : Obligations.MayconIsMembership := by
  intro h s hc hi hw
  simpa only [decide_eq_true_eq] using exec_maycon_ok hi (hw.mayContain_eq hc h)

/-! ### Runs of INSERTs (R137, R138 (e)) -/

theorem afterInserts_cfg_init {s u : State} {hs : List Word} (he : afterInserts s hs = some u) : u.cfg = s.cfg ∧ u.init = s.init := by
  induction hs generalizing s with
  | nil => exact Option.some.inj he ▸ ⟨rfl, rfl⟩
  | cons h hs ih =>
    obtain ⟨t, ht⟩ := exec_answers (.insert h) s
    obtain ⟨hcfg, _, _, _, _, _, _, hinit, _⟩ := commandFrame _ _ _ ht
    simp only [afterInserts, ht] at he
    split at he
    · obtain ⟨hcfg', hinit'⟩ := ih he
      exact ⟨hcfg'.trans hcfg, hinit'.trans (hinit (by simp))⟩
    · cases he

/-- What a run of INSERTs that all end OK adds to the remainders of a home: those of the hashes with that quotient. -/
theorem mem_storedAt_afterInserts_iff {s u : State} {hs : List Word} (hc : s.cfg.Legal) (hm : s.mem.wf = true)
    (hw : StoreWellFormed s.cfg s.mem) (he : afterInserts s hs = some u) {x : Nat} (hx : x < s.cfg.nslots) {v : Word} :
    v ∈ storedAt u.cfg u.mem x ↔
      v ∈ storedAt s.cfg s.mem x ∨ ∃ h ∈ hs, (hashHome s.cfg h).toNat = x ∧ hashRem s.cfg h = v := by
  induction hs generalizing s with
  | nil => simp [Option.some.inj he]
  | cons h hs ih =>
    obtain ⟨t, hcfg, hi, he⟩ := afterInserts_cons he
    have ha := insertStore_appended hc hm hw hi
    rw [ih (hcfg ▸ hc) (insertStore_wf hm hi) (hcfg ▸ ha.storeWellFormed) he (hcfg ▸ hx), hcfg, List.exists_mem_cons_iff, ← or_assoc]
    refine or_congr_left ?_
    by_cases hxh : x = (hashHome s.cfg h).toNat
    · subst hxh
      rw [ha.storedAt_home hw hx, List.mem_append, List.mem_singleton]
      exact or_congr_right (by simp [eq_comm])
    · rw [ha.storedAt_of_ne hw hx hxh]
      exact (or_iff_left fun ⟨hh, _⟩ => hxh hh.symm).symm

/-- Settles O54: the remainders stored for the home of x are those of the inserted hashes with that quotient, so MAYCON finds x exactly when
one of them has both parts of it. -/
theorem mayconExactAfterInserts : Obligations.MayconExactAfterInserts := by
  intro s t u hs hc ht hu x
  obtain ⟨hcfg, hmem⟩ := exec_clear_store ht
  obtain ⟨hcfgu, hinit⟩ := afterInserts_cfg_init hu
  have hct : t.cfg.Legal := hcfg ▸ hc
  have hcu : u.cfg.Legal := hcfgu ▸ hct
  have hm : t.mem.wf = true := hmem ▸ Memory.zero_wf
  have hwt : StoreWellFormed t.cfg t.mem := hmem ▸ storeWellFormed_zero
  obtain ⟨hw, _⟩ := afterInserts_homes hct hm hwt hu
  refine ⟨_, exec_maycon_ok (hinit.trans (exec_clear_init ht)) (hw.mayContain_eq hcu x), ?_⟩
  rw [decide_eq_true_iff, mem_storedAt_afterInserts_iff hct hm hwt hu (hcfgu ▸ hashHome_lt hcu x), hmem, storedAt_zero, hcfgu, ← hcfg]
  simp only [hashSplit_eq_iff hct, List.not_mem_nil, false_or]

end Sys2Proof.Machine
end

section
/-! PROOF. The statuses other than OK: what each says of the command and of the state it met, what a command that ends with one changes, and
FAULT, which records that one was a programmer error (60_exceptions.md R150 to R158). -/

open Sys2Proof.Laws.EncodedFields (pack_fields)

namespace Sys2Proof.Machine

/-! ### Which status a command ends with (R151 to R154, R157, R158) -/

/-- The reasons for a status other than OK, in the order of the checks that raise it (R158). -/
inductive ErrorCause (i : Instr) (s : State) : Status → Prop where
  /-- An operand is outside its legal range (R152). -/
  | badArg : ¬ i.WellFormed s.cfg → ErrorCause i s .badArg
  /-- The store is needed and has no value (R153). -/
  | uninit : i.WellFormed s.cfg → i.touchesStore = true → s.init = false → ErrorCause i s .uninit
  /-- A search of the store fails (R154, R157). -/
  | search {st : Status} : i.WellFormed s.cfg → s.init = true → st = .corrupt ∨ st = .overflow → ErrorCause i s st

section causes

variable {i : Instr} {s t : State}

/-- A command that does not end OK has raised its status and had cause to. -/
theorem CommandEnd.raised (h : CommandEnd i s t) (hst : t.st ≠ .ok) :
    t = s.raise t.st ∧ ErrorCause i s t.st := by
  cases h with
  | badArg hw => exact ⟨rfl, .badArg hw⟩
  | uninit hw ht hi => exact ⟨rfl, .uninit hw ht hi⟩
  | searchFailed st hw _ hi hsearch => exact ⟨rfl, .search hw hi hsearch⟩
  | answered | stored | cleared => exact absurd rfl hst

theorem exec_raised (h : exec i s = .next t) (hst : t.st ≠ .ok) : t = s.raise t.st ∧ ErrorCause i s t.st :=
  (commandEnd_of_exec h).raised hst

theorem not_errorCause_illegal : ¬ ErrorCause i s .illegal := by
  intro h
  cases h with
  | search _ _ hst => rcases hst with h | h <;> cases h

/-- BADARG and an operand outside its legal range come together (R152). -/
theorem ErrorCause.eq_badArg_iff {st : Status} (h : ErrorCause i s st) : st = .badArg ↔ ¬ i.WellFormed s.cfg := by
  cases h with
  | badArg hw => exact iff_of_true rfl hw
  | uninit hw => exact iff_of_false nofun (not_not.mpr hw)
  | search hw _ hst => exact iff_of_false (by rcases hst with rfl | rfl <;> nofun) (not_not.mpr hw)

/-- A command with an operand outside its legal range answers BADARG (R152). -/
theorem exec_of_not_wellFormed (hw : ¬ i.WellFormed s.cfg) : exec i s = .next (endError s .badArg) := by
  obtain ⟨t, h, hend⟩ := exec_commandEnd i s
  rw [h, ← s.raise_eq_endError rfl]
  cases hend with
  | badArg => rfl
  | uninit hw' | searchFailed _ hw' | answered _ _ hw' | stored _ hw' => exact absurd hw' hw
  | cleared hi => exact absurd (hi ▸ rfl) hw

end causes

/-- Settles O19: the check of the operands comes first and nothing later raises BADARG. -/
theorem badArgExactlyOutsideLegalRange : Obligations.BadArgExactlyOutsideLegalRange := by
  refine fun i s => ⟨exec_of_not_wellFormed, fun t hw h hst => ?_⟩
  obtain ⟨_, hcause⟩ := exec_raised h (hst ▸ nofun)
  exact hcause.eq_badArg_iff.mp hst hw

/-- Settles O20: UNINIT has the one cause that INIT is 0 where a well-formed command needs the store. -/
theorem uninitExactlyBeforeClear : Obligations.UninitExactlyBeforeClear := by
  refine fun i s => ⟨exec_of_uninit, fun t h hst => ?_⟩
  obtain ⟨_, hcause⟩ := exec_raised h (hst ▸ nofun)
  rw [hst] at hcause
  cases hcause with
  | uninit hw ht hi => exact ⟨hw, ht, hi⟩
  | search _ _ hst => rcases hst with h | h <;> cases h

/-- A BUSY unit with an illegal opcode ends with ILLEGAL (R151). -/
theorem step_of_illegalOpcode {s : State} (hr : s.pins.rst = false) (hb : s.busy = true)
    (hop : s.op.toNat = 0 ∨ 0x11 ≤ s.op.toNat) : step s = .next (endError s.consumeInput .illegal) := by
  obtain ⟨hfield, _⟩ := pack_fields s.op s.a s.b
  have hd := (decodeRejectsIllegalOpcodesOnly s.latched).mpr (hfield.symm ▸ hop)
  rw [step_of_busy hr hb, ← s.consumeInput.raise_eq_endError rfl]
  exact execLatched_illegal hd

/-- Settles O8: decoding rejects the word before anything else is looked at, and no command has cause for ILLEGAL. -/
theorem illegalOpcodeEndsIllegal : Obligations.IllegalOpcodeEndsIllegal := by
  refine ⟨fun s => step_of_illegalOpcode, fun i s t h hst => ?_⟩
  obtain ⟨_, hcause⟩ := exec_raised h (hst ▸ nofun)
  exact not_errorCause_illegal (hst ▸ hcause)

/-! ### What a status other than OK changes (R155) -/

theorem State.raise_eq_end (s : State) {st : Status} (h : st ≠ .ok) :
    s.raise st = if st = .overflow then endOverflow s else endError s st := by
  by_cases ho : st = .overflow
  · exact s.raise_eq_endSearch (.inr ho)
  · rw [if_neg ho, s.raise_eq_endError (st.setsFault_eq_decide.trans (decide_eq_true ⟨h, ho⟩))]

theorem execLatched_raised {s t : State} (h : execLatched s = .next t) (hst : t.st ≠ .ok) : t = s.raise t.st := by
  cases hd : decode s.latched with
  | ok i =>
    obtain ⟨heq, _⟩ := exec_raised (execLatched_ok hd ▸ h) hst
    exact heq
  | error e => exact Host.Outcome.next.inj ((execLatched_illegal hd).symm.trans h) ▸ rfl

/-- Settles O21: whatever is executed raises its status, and a raised status is a response; with that response taken the unit is ready. -/
theorem errorChangesOnlyResponseAndFault : Obligations.ErrorChangesOnlyResponseAndFault := by
  refine ⟨fun i s t h hst => ?_, fun s t hr hb h hst => ?_⟩
  · obtain ⟨heq, _⟩ := exec_raised h hst
    exact heq.trans (s.raise_eq_end hst)
  · have heq := execLatched_raised ((step_of_busy hr hb).symm.trans h) hst
    have hidle : t.busy = false := congrArg State.busy heq
    exact ⟨heq.trans (s.consumeInput.raise_eq_end hst), fun p ps hp hvalid =>
      stepAcceptsPresentedCommand _ p ps rfl hp (State.cmdReady_iff.mpr ⟨hidle, rfl⟩) hvalid⟩

/-! ### FAULT (R156) -/

theorem exec_fault {i : Instr} {s t : State} (h : exec i s = .next t) : t.fault = faultAfter s.fault t.st := by
  obtain ⟨m, init, st, x, y, rfl, _⟩ := (commandEnd_of_exec h).eq_respond
  rfl

theorem execLatched_fault {s t : State} (h : execLatched s = .next t) : t.fault = faultAfter s.fault t.st := by
  cases hd : decode s.latched with
  | ok i => exact exec_fault (execLatched_ok hd ▸ h)
  | error e => exact Host.Outcome.next.inj ((execLatched_illegal hd).symm.trans h) ▸ rfl

/-- What a step makes of FAULT: a reset clears it, a BUSY unit sets it as the status of its command says, and the ports leave it alone. -/
theorem step_fault_cases {s t : State} (h : step s = .next t) :
    (s.pins.rst = true ∧ t.fault = false) ∨
    (s.pins.rst = false ∧ s.busy = true ∧ t.fault = faultAfter s.fault t.st) ∨
    (s.pins.rst = false ∧ s.busy = false ∧ t.fault = s.fault) := by
  rcases stepWith_cases s.pins s.consumeInput with ⟨hr, he⟩ | ⟨hr, hb, he⟩ | ⟨hr, hb, _, he⟩ | ⟨hr, hb, _, he⟩ <;>
    have h := he.symm.trans h
  · obtain rfl := Host.Outcome.next.inj h
    exact .inl ⟨hr, rfl⟩
  · exact .inr (.inl ⟨hr, hb, execLatched_fault (s := s.consumeInput) h⟩)
  · obtain rfl := Host.Outcome.next.inj h
    exact .inr (.inr ⟨hr, hb, by split <;> rfl⟩)
  · obtain rfl := Host.Outcome.next.inj h
    exact .inr (.inr ⟨hr, hb, by split <;> rfl⟩)

/-- The statuses that set FAULT are the four programmer errors. -/
theorem faultAfter_false_iff (st : Status) :
    faultAfter false st = true ↔ st = .illegal ∨ st = .badArg ∨ st = .uninit ∨ st = .corrupt := by
  cases st <;> simp [faultAfter, Status.setsFault]

/-- Settles O22: each of the three things a step can make of FAULT, from FAULT = 1 and from FAULT = 0. -/
theorem faultClearedOnlyByReset : Obligations.FaultClearedOnlyByReset := by
  intro s t h
  rcases step_fault_cases h with ⟨hr, hf⟩ | ⟨hr, hb, hf⟩ | ⟨hr, hb, hf⟩
  · simp [hr, hf]
  · refine ⟨fun h1 => ?_, fun h0 => ?_⟩
    · simp [hr, hf, h1]
    · rw [hf, h0, faultAfter_false_iff]
      simp [hr, hb]
  · simp +contextual [hr, hb, hf]

/-- Settles O12: the unit is ready for a command and none is presented. -/
theorem idleStepChangesNothing : Obligations.IdleStepChangesNothing := by
  intro s hr hready hvalid
  rw [step_of_cmdReady hr hready, hvalid]
  rfl

end Sys2Proof.Machine
end

section
/-! PROOF. The two statuses a search of the store can raise: which commands search, and what the store must look like for CORRUPT and for
OVERFLOW (60_exceptions.md R154, R157, 42_run_navigator.md R114, R115). -/

namespace Sys2Proof.Machine

/-! ### What the store must look like (R154, R157) -/

section causes

variable {c : Config} {m : Memory} {s : Nat} {st : Status}

/-- Some slot has homes at or below it, and the filter has fewer run-ends than those. -/
def RunEndMissing (c : Config) (m : Memory) : Prop :=
  ∃ x, x < c.nslots ∧ homesUpTo c m x ≠ 0 ∧ runEndNo c m (homesUpTo c m x) = none

/-- Some slot is covered by the run of the largest home at or below it, and that run ends at the last slot. -/
def CoveredToLastSlot (c : Config) (m : Memory) : Prop :=
  ∃ x e, x < c.nslots ∧ homesUpTo c m x ≠ 0 ∧ runEndNo c m (homesUpTo c m x) = some e ∧ x ≤ e ∧ e + 1 = c.nslots

theorem StoreWellFormed.not_runEndMissing (hw : StoreWellFormed c m) : ¬ RunEndMissing c m :=
  fun ⟨_, hx, ht, hr⟩ => hw.runEndNo_ne_none hx ht hr

/-- The question for a run-end fails only where that run-end is missing (R154). -/
theorem runEndMissing_of_runEndAt (hc : c.Legal) (hs : s < c.nslots) (h : runEndAt c m s = .error st) : RunEndMissing c m := by
  by_cases ht : homesUpTo c m s = 0
  · cases (runEndAt_of_noHome ht).symm.trans h
  · cases hr : runEndNo c m (homesUpTo c m s) with
    | none => exact ⟨s, hs, ht, hr⟩
    | some e => cases (runEndAt_of_runEnd hc ht hr).symm.trans h

/-- The status a search of the store raises, with what the store must look like. -/
inductive SearchFault (c : Config) (m : Memory) : Status → Prop where
  | corrupt : RunEndMissing c m → SearchFault c m .corrupt
  | overflow : CoveredToLastSlot c m → SearchFault c m .overflow

theorem searchFault_of_runEndAt (hc : c.Legal) (hs : s < c.nslots) (h : runEndAt c m s = .error st) : SearchFault c m st :=
  runEndAt_error h ▸ .corrupt (runEndMissing_of_runEndAt hc hs h)

/-- The rounds of `Fas` fail at a missing run-end or at a run up to the last slot (R115). -/
theorem FasRounds.searchFault (h : FasRounds c m s (.error st)) (hs : s < c.nslots) : SearchFault c m st := by
  generalize hans : Except.error st = answer at h
  induction h with
  | noHome | free => cases hans
  | missing s ht hr => exact Except.error.inj hans ▸ .corrupt ⟨s, hs, ht, hr⟩
  | past s e ht hr hse hlast =>
    obtain ⟨he, _⟩ := (runEndNo_eq_some_iff ht).mp hr
    exact Except.error.inj hans ▸ .overflow ⟨s, e, hs, ht, hr, hse, Nat.le_antisymm he hlast⟩
  | covered s e answer _ _ _ hnext _ ih => exact ih hnext hans

theorem searchFault_of_fas (hc : c.Legal) (hs : s < c.nslots) (h : fas c m s = .error st) : SearchFault c m st :=
  ((fasRounds_iff_fas_eq hc hs).mpr h).searchFault hs

/-- INSERT fails where one of its two questions does (43_filter_ops.md R132). -/
theorem searchFault_of_insertStore (hc : c.Legal) {h : Word} (he : insertStore c m h = .error st) : SearchFault c m st := by
  have hs := hashHome_lt hc h
  rcases hr : runEndAt c m (hashHome c h).toNat with st' | _ | ⟨e, t⟩
  · obtain rfl := Except.error.inj ((insertStore_of_runEndAt_error hr).symm.trans he)
    exact searchFault_of_runEndAt hc hs hr
  · cases (insertStore_of_free (.inl hr)).symm.trans he
  · rcases Nat.lt_or_ge e (hashHome c h).toNat with hlow | hobstructed
    · cases (insertStore_of_free (.inr ⟨e, t, hr, hlow⟩)).symm.trans he
    · rw [insertStore_of_obstructed hr hobstructed] at he
      cases hf : fas c m (hashHome c h).toNat with
      | ok n => cases hf ▸ he
      | error st' =>
        rw [hf] at he
        exact Except.error.inj he ▸ searchFault_of_fas hc hs hf

/-- MAYCON fails where the run-end of its home is missing (43_filter_ops.md R137). -/
theorem searchFault_of_mayContain (hc : c.Legal) {h : Word} (he : mayContain c m h = .error st) : SearchFault c m st := by
  cases ho : slotOcc c m (hashHome c h).toNat with
  | false => cases (mayContain_of_not_home ho).symm.trans he
  | true =>
    cases hr : runEndNo c m (homesUpTo c m (hashHome c h).toNat) with
    | none => exact mayContain_error he ▸ .corrupt ⟨_, hashHome_lt hc h, homesUpTo_ne_zero_of_home ho, hr⟩
    | some e => cases (mayContain_of_runEnd hc ho hr).symm.trans he

end causes

/-! ### Which commands search (R154, R157) -/

/-- Some operand makes the command one of the five that ask for a run-end (R114). -/
def AsksRunEnd (i : Instr) : Prop := ∃ a, i = .runend a ∨ i = .fas a ∨ i = .homecov a ∨ i = .insert a ∨ i = .maycon a

/-- Some operand makes the command one of the two that look for a free slot (R115). -/
def LooksForFreeSlot (i : Instr) : Prop := ∃ a, i = .fas a ∨ i = .insert a

/-- What the end state `u` of command `i` from `s` says of the searches: their statuses come from the commands that search, on a store that
is the cause. -/
structure SearchEnd (i : Instr) (s u : State) : Prop where
  corrupt : u.st = .corrupt → AsksRunEnd i ∧ RunEndMissing s.cfg s.mem
  overflow : u.st = .overflow → LooksForFreeSlot i ∧ CoveredToLastSlot s.cfg s.mem

namespace SearchEnd

variable {i : Instr} {s u : State}

theorem finish (v : State) (x y : Word) : SearchEnd i s (v.finish x y) := ⟨nofun, nofun⟩

/-- A search raises its fault; OVERFLOW only where it looks for a free slot. -/
theorem raise {st : Status} (hi : AsksRunEnd i) (ho : st = .overflow → LooksForFreeSlot i) (h : SearchFault s.cfg s.mem st) :
    SearchEnd i s (s.raise st) := by
  cases h with
  | corrupt hm => exact ⟨fun _ => ⟨hi, hm⟩, nofun⟩
  | overflow hm => exact ⟨nofun, fun _ => ⟨ho rfl, hm⟩⟩

theorem guarded {p : Prop} [Decidable p] (hu : ¬ p → SearchEnd i s u) : SearchEnd i s (if p then s.raise .badArg else u) := by
  split
  · exact ⟨nofun, nofun⟩
  · next hp => exact hu hp

theorem withStore {k : Memory → State} (hk : SearchEnd i s (k s.mem)) : SearchEnd i s (s.withStore k) := by
  cases hi : s.init with
  | false => exact State.withStore_uninit hi k ▸ ⟨nofun, nofun⟩
  | true => exact State.withStore_init hi k ▸ hk

/-- A command that checks its operands and then goes on with the store without searching it. -/
theorem guardedFinish {p : Prop} [Decidable p] {v : Memory → State} {x y : Memory → Word} :
    SearchEnd i s (if p then s.raise .badArg else s.withStore fun m => (v m).finish (x m) (y m)) :=
  guarded fun _ => withStore (finish _ _ _)

/-- The two commands that answer from the run-end they ask for (R114, R116). -/
theorem askRunEnd {a : Word} {x y : Nat → Word} (hc : s.cfg.Legal) (hi : AsksRunEnd i) :
    SearchEnd i s (Machine.askRunEnd s a x y) := by
  refine guarded fun ha => withStore ?_
  split
  · next h =>
    obtain rfl := runEndAt_error h
    exact raise hi nofun (searchFault_of_runEndAt hc (Nat.lt_of_not_le ha) h)
  · exact finish _ _ _
  · exact finish _ _ _

end SearchEnd

theorem exec_fas_searchEnd {s : State} (hc : s.cfg.Legal) (a : Word) :
    ∃ t, exec (.fas a) s = .next t ∧ SearchEnd (.fas a) s t := by
  refine ⟨_, rfl, .guarded fun ha => .withStore ?_⟩
  split
  · next h => exact .raise ⟨a, by simp⟩ (fun _ => ⟨a, by simp⟩) (searchFault_of_fas hc (Nat.lt_of_not_le ha) h)
  · exact .finish _ _ _

theorem exec_insert_searchEnd {s : State} (hc : s.cfg.Legal) (a : Word) :
    ∃ t, exec (.insert a) s = .next t ∧ SearchEnd (.insert a) s t := by
  refine ⟨_, rfl, .withStore ?_⟩
  split
  · next h => exact .raise ⟨a, by simp⟩ (fun _ => ⟨a, by simp⟩) (searchFault_of_insertStore hc h)
  · exact .finish _ _ _

theorem exec_maycon_searchEnd {s : State} (hc : s.cfg.Legal) (a : Word) :
    ∃ t, exec (.maycon a) s = .next t ∧ SearchEnd (.maycon a) s t := by
  refine ⟨_, rfl, .withStore ?_⟩
  split
  · next h =>
    obtain rfl := mayContain_error h
    exact .raise ⟨a, by simp⟩ nofun (searchFault_of_mayContain hc h)
  · exact .finish _ _ _

theorem exec_rdcsr_searchEnd (s : State) (a : Word) : ∃ t, exec (.rdcsr a) s = .next t ∧ SearchEnd (.rdcsr a) s t := by
  refine ⟨_, rfl, ?_⟩
  split
  · exact ⟨nofun, nofun⟩
  · exact .finish _ _ _

theorem exec_searchEnd {s : State} (hc : s.cfg.Legal) (i : Instr) : ∃ t, exec i s = .next t ∧ SearchEnd i s t := by
  cases i with
  | rank64 a b | select64 a b => exact ⟨_, rfl, .guarded fun _ => .finish _ _ _⟩
  | ldw a | stw a b | remrd a | remwr a b | grank a | gsel a => exact ⟨_, rfl, .guardedFinish⟩
  | runend a => exact ⟨_, exec_runend_eq a s, .askRunEnd hc ⟨a, by simp⟩⟩
  | fas a => exact exec_fas_searchEnd hc a
  | homecov a => exact ⟨_, exec_homecov_eq a s, .askRunEnd hc ⟨a, by simp⟩⟩
  | split a => exact ⟨_, rfl, .finish _ _ _⟩
  | insert a => exact exec_insert_searchEnd hc a
  | maycon a => exact exec_maycon_searchEnd hc a
  | clear => exact ⟨_, rfl, .finish _ _ _⟩
  | rdcsr a => exact exec_rdcsr_searchEnd s a

theorem searchEnd_of_exec {i : Instr} {s t : State} (hc : s.cfg.Legal) (h : exec i s = .next t) : SearchEnd i s t := by
  obtain ⟨t', h', hend⟩ := exec_searchEnd hc i
  exact Host.Outcome.next.inj (h'.symm.trans h) ▸ hend

/-! ### The statements -/

/-- Settles O24: CORRUPT is the fault of a question for a run-end that is missing. -/
theorem corruptMeansMissingRunEnd : Obligations.CorruptMeansMissingRunEnd :=
  fun _ _ _ hc h => (searchEnd_of_exec hc h).corrupt

/-- Settles O25: OVERFLOW is the fault of a search for a free slot that met a run up to the last slot, and raising it is a response. -/
theorem overflowMeansRunAtLastSlot : Obligations.OverflowMeansRunAtLastSlot := by
  intro i s t hc h hst
  obtain ⟨hi, hcover⟩ := (searchEnd_of_exec hc h).overflow hst
  obtain ⟨heq, _⟩ := exec_raised h (hst ▸ nofun)
  refine ⟨hi, heq.trans ?_, hcover⟩
  rw [hst]
  exact (s.raise_eq_endSearch (.inr rfl)).trans (if_pos rfl)

/-- Settles O57: CORRUPT needs a store, and a well-formed store has a run-end for every home. -/
theorem neverCorruptOnWellFormedStore : Obligations.NeverCorruptOnWellFormedStore := by
  intro i s t hc hw h hst
  obtain ⟨_, hcause⟩ := exec_raised h (hst ▸ nofun)
  obtain ⟨_, hmissing⟩ := (searchEnd_of_exec hc h).corrupt hst
  rw [hst] at hcause
  cases hcause with
  | search _ hi => exact (hw hi).not_runEndMissing hmissing

end Sys2Proof.Machine
end

section
/-! PROOF. FAULT is a record that no command looks at, but for the read of FLAGS: every command answers alike on two states that differ in
FAULT alone (60_exceptions.md R156, 10_state.md R24, R26). -/

namespace Sys2Proof.Machine

/-- The second state is the first with some value of FAULT. -/
def AlikeButFault (s s' : State) : Prop := ∃ f, s' = { s with fault := f }

namespace AlikeButFault

variable {s s' u u' : State}

theorem withFault (s : State) (f : Bool) : AlikeButFault s { s with fault := f } := ⟨f, rfl⟩

theorem respond (h : AlikeButFault s s') (st : Status) (x y : Word) : AlikeButFault (s.respond st x y) (s'.respond st x y) := by
  obtain ⟨f, rfl⟩ := h
  exact ⟨faultAfter f st, rfl⟩

theorem raise (h : AlikeButFault s s') (st : Status) : AlikeButFault (s.raise st) (s'.raise st) := h.respond st _ _

theorem finish (h : AlikeButFault s s') (x y : Word) : AlikeButFault (s.finish x y) (s'.finish x y) := h.respond .ok x y

theorem withMem (h : AlikeButFault s s') (m : Memory) : AlikeButFault { s with mem := m } { s' with mem := m } := by
  obtain ⟨f, rfl⟩ := h
  exact ⟨f, rfl⟩

theorem cleared (h : AlikeButFault s s') :
    AlikeButFault { s with mem := Memory.zero, init := true } { s' with mem := Memory.zero, init := true } := by
  obtain ⟨f, rfl⟩ := h
  exact ⟨f, rfl⟩

theorem ite {p : Prop} [Decidable p] {v v' : State} (hu : AlikeButFault u u') (hv : AlikeButFault v v') :
    AlikeButFault (if p then u else v) (if p then u' else v') := by
  split
  · exact hu
  · exact hv

theorem guarded {p : Prop} [Decidable p] (h : AlikeButFault s s') (hu : AlikeButFault u u') :
    AlikeButFault (if p then s.raise .badArg else u) (if p then s'.raise .badArg else u') := ite (h.raise _) hu

theorem withStore {k k' : Memory → State} (h : AlikeButFault s s') (hk : ∀ m, AlikeButFault (k m) (k' m)) :
    AlikeButFault (s.withStore k) (s'.withStore k') := by
  have hraise := h.raise .uninit
  obtain ⟨f, rfl⟩ := h
  exact ite (hk s.mem) hraise

end AlikeButFault

/-- The registers but FLAGS do not show FAULT (10_state.md R25). -/
theorem csrValue_withFault (s : State) (f : Bool) {n : Nat} (hn : n ≠ 8) : csrValue { s with fault := f } n = csrValue s n := by
  match n with
  | 0 | 1 | 2 | 3 | 4 | 5 | 6 | 7 => rfl
  | 8 => exact absurd rfl hn
  | n + 9 => rfl

/-! ### The commands -/

/-- With another value of FAULT the command answers a state alike but for FAULT. -/
def BlindToFault (i : Instr) : Prop :=
  ∀ (s : State) (f : Bool), ∃ t t', exec i s = .next t ∧ exec i { s with fault := f } = .next t' ∧ AlikeButFault t t'

theorem askRunEnd_alikeButFault (s : State) (f : Bool) (a : Word) (x y : Nat → Word) :
    AlikeButFault (askRunEnd s a x y) (askRunEnd { s with fault := f } a x y) := by
  have hs := AlikeButFault.withFault s f
  refine hs.guarded (hs.withStore fun m => ?_)
  dsimp only
  rcases runEndAt s.cfg m a.toNat with st | _ | ⟨e, t⟩
  · exact hs.raise st
  · exact hs.finish _ _
  · exact hs.finish _ _

theorem fas_blindToFault (a : Word) : BlindToFault (.fas a) := by
  intro s f
  have hs := AlikeButFault.withFault s f
  refine ⟨_, _, rfl, rfl, hs.guarded (hs.withStore fun m => ?_)⟩
  dsimp only
  rcases fas s.cfg m a.toNat with st | n
  · exact hs.raise st
  · exact hs.finish _ _

theorem insert_blindToFault (a : Word) : BlindToFault (.insert a) := by
  intro s f
  have hs := AlikeButFault.withFault s f
  refine ⟨_, _, rfl, rfl, hs.withStore fun m => ?_⟩
  dsimp only
  rcases insertStore s.cfg m a with st | m'
  · exact hs.raise st
  · exact (hs.withMem m').finish _ _

theorem maycon_blindToFault (a : Word) : BlindToFault (.maycon a) := by
  intro s f
  have hs := AlikeButFault.withFault s f
  refine ⟨_, _, rfl, rfl, hs.withStore fun m => ?_⟩
  dsimp only
  rcases mayContain s.cfg m a with st | found
  · exact hs.raise st
  · exact hs.finish _ _

theorem rdcsr_blindToFault {a : Word} (ha : a ≠ 8#64) : BlindToFault (.rdcsr a) := by
  intro s f
  have hs := AlikeButFault.withFault s f
  have hcsr := csrValue_withFault s f (n := a.toNat) fun h => ha (BitVec.eq_of_toNat_eq h)
  refine ⟨_, _, rfl, rfl, ?_⟩
  rw [hcsr]
  rcases csrValue s a.toNat with _ | v
  · exact hs.raise _
  · exact hs.finish _ _

theorem exec_blindToFault {i : Instr} (hi : i ≠ .rdcsr 8#64) : BlindToFault i := by
  intro s f
  have hs := AlikeButFault.withFault s f
  cases i with
  | rank64 a b | select64 a b => exact ⟨_, _, rfl, rfl, hs.guarded (hs.finish _ _)⟩
  | ldw a | remrd a | grank a | gsel a =>
    exact ⟨_, _, rfl, rfl, hs.guarded (hs.withStore fun _ => hs.finish _ _)⟩
  | stw a b | remwr a b =>
    exact ⟨_, _, rfl, rfl, hs.guarded (hs.withStore fun _ => (hs.withMem _).finish _ _)⟩
  | runend a => exact ⟨_, _, exec_runend_eq a _, exec_runend_eq a _, askRunEnd_alikeButFault s f a _ _⟩
  | homecov a => exact ⟨_, _, exec_homecov_eq a _, exec_homecov_eq a _, askRunEnd_alikeButFault s f a _ _⟩
  | fas a => exact fas_blindToFault a s f
  | split a => exact ⟨_, _, rfl, rfl, hs.finish _ _⟩
  | insert a => exact insert_blindToFault a s f
  | maycon a => exact maycon_blindToFault a s f
  | clear => exact ⟨_, _, rfl, rfl, hs.cleared.finish _ _⟩
  | rdcsr a => exact rdcsr_blindToFault (fun h => hi (h ▸ rfl)) s f

/-- Settles O23: every command but the read of FLAGS is blind to FAULT. -/
theorem faultDoesNotChangeBehaviour : Obligations.FaultDoesNotChangeBehaviour := by
  intro i s t f h hi
  obtain ⟨u, u', hu, hu', g, rfl⟩ := exec_blindToFault hi s f
  obtain rfl := Host.Outcome.next.inj (hu.symm.trans h)
  exact ⟨g, hu'⟩

end Sys2Proof.Machine
end

section
/-! PROOF. Reset, the wait for a response to be taken, the latches of the command in hand, and the store that has no value before the first
CLEAR (70_reset_and_hazards.md R170 to R172, R176). -/

namespace Sys2Proof.Machine

section steps

variable {s t : State}

/-! ### Reset (R170, R172) -/

/-- A sample with `rst` high resets the unit, whatever it was doing. -/
theorem step_of_rst (hr : s.pins.rst = true) : step s = .next s.consumeInput.resetNow := if_pos hr

/-- Settles O13: the reset state shows its values, and INIT is 0 in it. -/
theorem resetSampleResets : Obligations.ResetSampleResets :=
  fun s hr => ⟨s.consumeInput.resetNow, step_of_rst hr, rfl, rfl, rfl, rfl, rfl, rfl, rfl, rfl, rfl, rfl,
    fun _ hw ht => exec_of_uninit hw ht rfl⟩

/-! ### A unit that is not ready for a command (R176) -/

/-- A unit that is not BUSY and has a response waiting lets the host take it, and does nothing else. -/
theorem step_of_responseWaiting (hr : s.pins.rst = false) (hb : s.busy = false) (hv : s.rspValid = true) :
    step s = .next { s with rspValid := !s.pins.rspReady, inputs := s.inputs.tail } := by
  rcases stepWith_cases s.pins s.consumeInput with ⟨hr', _⟩ | ⟨_, hb', _⟩ | ⟨_, _, _, he⟩ | ⟨_, _, hv', _⟩
  · cases hr.symm.trans hr'
  · cases hb.symm.trans hb'
  · rw [step, he]
    cases s.pins.rspReady with
    | true => rfl
    | false => simp [State.consumeInput, ← hv]
  · cases hv.symm.trans hv'

/-- Settles O11: the one change but for the sample read is in the flag that says a response waits. -/
theorem responseHeldUntilTaken : Obligations.ResponseHeldUntilTaken :=
  fun _ hr hb hv => ⟨_, step_of_responseWaiting hr hb hv, rfl, rfl, rfl⟩

/-- The execution of what the latches hold, illegal opcode or not, leaves them alone and the unit not BUSY (10_state.md R21, R24). -/
theorem execLatched_latches (h : execLatched s = .next t) : t.op = s.op ∧ t.a = s.a ∧ t.b = s.b ∧ t.busy = false := by
  cases hd : decode s.latched with
  | ok i =>
    obtain ⟨_, hop, ha, hb, _, hbusy, _⟩ := commandFrame i s t (execLatched_ok hd ▸ h)
    exact ⟨hop, ha, hb, hbusy⟩
  | error e =>
    obtain rfl := Host.Outcome.next.inj ((execLatched_illegal hd).symm.trans h)
    exact ⟨rfl, rfl, rfl, rfl⟩

/-- Settles O10: a unit that is not ready executes its command or waits for its response to be taken, and neither writes the latches. -/
theorem noAcceptanceWhileBusyOrWaiting : Obligations.NoAcceptanceWhileBusyOrWaiting := by
  intro s t hr hready h
  cases hb : s.busy with
  | true => exact execLatched_latches (s := s.consumeInput) ((step_of_busy hr hb).symm.trans h)
  | false =>
    have hv : s.rspValid = true := by simpa [State.cmdReady, hb] using hready
    obtain rfl := Host.Outcome.next.inj ((step_of_responseWaiting hr hb hv).symm.trans h)
    exact ⟨rfl, rfl, rfl, hb⟩

end steps

/-! ### The store before the first CLEAR (R171) -/

section unobservable

variable {i : Instr} {s t : State}

/-- No register shows the content of the store (10_state.md R25, R26). -/
theorem csrValue_withMem (s : State) (m : Memory) (n : Nat) : csrValue { s with mem := m } n = csrValue s n := by
  match n with
  | 0 | 1 | 2 | 3 | 4 | 5 | 6 | 7 | 8 => rfl
  | n + 9 => rfl

/-- The end of a command that checks its operand and answers without the store, on a state with another store. -/
theorem guardedFinish_withMem {p : Prop} [Decidable p] (s : State) (m : Memory) (x y : Word) :
    (if p then State.raise { s with mem := m } .badArg else State.finish { s with mem := m } x y) =
      { (if p then s.raise .badArg else s.finish x y) with mem := m } := by
  split <;> rfl

/-- RDCSR answers the same whatever the store holds (43_filter_ops.md R140). -/
theorem exec_rdcsr_withMem {a : Word} (m : Memory) (h : exec (.rdcsr a) s = .next t) :
    exec (.rdcsr a) { s with mem := m } = .next { t with mem := m } := by
  cases hv : csrValue s a.toNat with
  | none =>
    obtain rfl := Host.Outcome.next.inj ((exec_rdcsr_none hv).symm.trans h)
    exact exec_rdcsr_none ((csrValue_withMem s m _).trans hv)
  | some v =>
    obtain rfl := Host.Outcome.next.inj ((exec_rdcsr_some hv).symm.trans h)
    exact exec_rdcsr_some ((csrValue_withMem s m _).trans hv)

/-- A command that neither needs the store nor clears it answers the same whatever the store holds, and leaves it alone. -/
theorem exec_withMem_of_not_touchesStore (m : Memory) (ht : i.touchesStore = false) (hc : i ≠ .clear) (h : exec i s = .next t) :
    exec i { s with mem := m } = .next { t with mem := m } := by
  cases i with
  | rank64 a b | select64 a b => exact Host.Outcome.next.inj h ▸ congrArg _ (guardedFinish_withMem s m _ _)
  | split a => exact Host.Outcome.next.inj h ▸ rfl
  | rdcsr a => exact exec_rdcsr_withMem m h
  | clear => exact absurd rfl hc
  | ldw | stw | remrd | remwr | grank | gsel | runend | fas | homecov | insert | maycon => cases ht

/-- A command that needs the store looks at its operands and at INIT, and while INIT = 0 at nothing else (60_exceptions.md R158). -/
theorem exec_withMem_of_touchesStore (m : Memory) (ht : i.touchesStore = true) (hi : s.init = false) (h : exec i s = .next t) :
    exec i { s with mem := m } = .next { t with mem := m } := by
  by_cases hw : i.WellFormed s.cfg
  · obtain rfl := Host.Outcome.next.inj ((exec_of_uninit hw ht hi).symm.trans h)
    exact exec_of_uninit (s := { s with mem := m }) hw ht hi
  · obtain rfl := Host.Outcome.next.inj ((exec_of_not_wellFormed hw).symm.trans h)
    exact exec_of_not_wellFormed (s := { s with mem := m }) hw

end unobservable

/-- Settles O15: CLEAR overwrites the store, the commands that need it stop before they read it, and the others never do. -/
theorem storeUnobservableBeforeClear : Obligations.StoreUnobservableBeforeClear := by
  intro i s m t hi h
  by_cases hc : i = .clear
  · subst hc
    exact h
  · rw [if_neg hc]
    cases ht : i.touchesStore with
    | false => exact exec_withMem_of_not_touchesStore m ht hc h
    | true => exact exec_withMem_of_touchesStore m ht hi h

end Sys2Proof.Machine
end
